-- ==== Sys2Proof/Word.lean ====
section
/-!
DEFINITION. The word types of real48_decoder: the 64-bit command and response words, the 48-bit buffer
and its bytes (spec/00_scope.md R7, R8).
-/

namespace Sys2Proof

/-- A 64-bit word: a command word `C` (R60) or response data (R67). -/
abbrev Word := BitVec 64

/-- One byte `B[i]` of a buffer (R8). -/
abbrev Byte := BitVec 8

/-- Six bytes in a 48-bit register or field, `W = {B[0], ..., B[5]}` (R8). -/
abbrev Bytes6 := BitVec 48

end Sys2Proof
end

