-- ==== Sys2Proof/Syntax.lean ====
section
/-!
DEFINITION. The commands of real48_decoder, one constructor per row of spec/opcode_table.json (spec/30_encoding.md R65).
-/

namespace Sys2Proof

/-- A command. Its operands are what the command reads (R62 to R64); the fields it ignores are dropped by the
decoder (log entry 5). Integers and lengths are held as numbers, and `Instr.wellFormed` says which of them
a command word can carry. -/
inductive Instr where
  /-- OP 0x0 (R120). -/
  | nop
  /-- OP 0x1 (R80): the source's `combine(int16, int32)`. -/
  | combine (i16 i32 : Int)
  /-- OP 0x2 (R90): the source's `from_bytes`, with the byte count LEN and the six bytes of DATA. -/
  | load (len : Nat) (data : Bytes6)
  /-- OP 0x3 (R91). -/
  | reverse
  /-- OP 0x4 (R102). -/
  | toSingle
  /-- OP 0x5 (R106). -/
  | toDouble
  /-- OP 0x6 (R108). -/
  | value
  /-- OP 0x7 (R92). -/
  | getSign
  /-- OP 0x8 (R93). -/
  | getExp
  /-- OP 0x9 (R94). -/
  | getBuf
  /-- OP 0xA, reserved (R121). -/
  | reservedA
  /-- OP 0xB, reserved (R121). -/
  | reservedB
  /-- OP 0xC, reserved (R121). -/
  | reservedC
  /-- OP 0xD, reserved (R121). -/
  | reservedD
  /-- OP 0xE, reserved (R121). -/
  | reservedE
  /-- OP 0xF, reserved (R121). -/
  | reservedF
deriving DecidableEq, Repr

end Sys2Proof
end

