-- ==== Sys2Proof/WellFormed.lean ====
section
/-!
DEFINITION. Which commands a command word can carry: the ranges of the fields I16, I32 and LEN
(spec/30_encoding.md R62, R64; spec/40_reassembler.md R81, R82).
-/

namespace Sys2Proof

/-- The command fits the fields of its word: `i16` the 16-bit field I16 and `i32` the 32-bit field I32, both two's
complement (R64), and `len` the 4-bit field LEN (R62). The two error encodings (`i16 = -32768`, `len ≠ 6`) are
well-formed: they are commands the block answers with an error status (R66). -/
def Instr.wellFormed : Instr → Bool
  | .combine i16 i32 =>
    decide (-32768 ≤ i16) && decide (i16 ≤ 32767) && decide (-2147483648 ≤ i32) && decide (i32 ≤ 2147483647)
  | .load len _ => decide (len ≤ 15)
  | .nop => true
  | .reverse => true
  | .toSingle => true
  | .toDouble => true
  | .value => true
  | .getSign => true
  | .getExp => true
  | .getBuf => true
  | .reservedA => true
  | .reservedB => true
  | .reservedC => true
  | .reservedD => true
  | .reservedE => true
  | .reservedF => true

end Sys2Proof
end

