-- ==== Sys2Proof/Decode.lean ====
section
/-!
DEFINITION. The command encoding of spec/30_encoding.md: the fields of a command word, the decoder (total, R66) and
the encoder, both written from the tables of R60 and R65.
-/

namespace Sys2Proof

/-- OP, `C[63:60]` (R61). -/
def opField (c : Word) : BitVec 4 := c.extractLsb' 60 4

/-- LEN, `C[59:56]` (R62). -/
def lenField (c : Word) : BitVec 4 := c.extractLsb' 56 4

/-- RSVD, `C[55:48]`, which every command ignores (R63). -/
def rsvdField (c : Word) : BitVec 8 := c.extractLsb' 48 8

/-- DATA, `C[47:0]` (R64). -/
def dataField (c : Word) : Bytes6 := c.extractLsb' 0 48

/-- I16, `C[47:32]`, COMBINE's first operand (R64). -/
def i16Field (c : Word) : BitVec 16 := c.extractLsb' 32 16

/-- I32, `C[31:0]`, COMBINE's second operand (R64). -/
def i32Field (c : Word) : BitVec 32 := c.extractLsb' 0 32

/-- The decoder (R65): OP alone selects the command (R60), and each command takes the operands R64 gives it.
OP has sixteen values, so the last arm is OP 0xF and nothing is rejected (R66). -/
def decode (c : Word) : Instr :=
  match (opField c).toNat with
  | 0x0 => .nop
  | 0x1 => .combine (i16Field c).toInt (i32Field c).toInt
  | 0x2 => .load (lenField c).toNat (dataField c)
  | 0x3 => .reverse
  | 0x4 => .toSingle
  | 0x5 => .toDouble
  | 0x6 => .value
  | 0x7 => .getSign
  | 0x8 => .getExp
  | 0x9 => .getBuf
  | 0xA => .reservedA
  | 0xB => .reservedB
  | 0xC => .reservedC
  | 0xD => .reservedD
  | 0xE => .reservedE
  | _ => .reservedF

/-- The opcode of each command (R65). -/
def opcodeOf : Instr → BitVec 4
  | .nop => 0x0
  | .combine _ _ => 0x1
  | .load _ _ => 0x2
  | .reverse => 0x3
  | .toSingle => 0x4
  | .toDouble => 0x5
  | .value => 0x6
  | .getSign => 0x7
  | .getExp => 0x8
  | .getBuf => 0x9
  | .reservedA => 0xA
  | .reservedB => 0xB
  | .reservedC => 0xC
  | .reservedD => 0xD
  | .reservedE => 0xE
  | .reservedF => 0xF

/-- The word with the given fields, in the order of R60. -/
def commandWord (op len : BitVec 4) (rsvd : BitVec 8) (data : Bytes6) : Word :=
  op ++ len ++ rsvd ++ data

/-- The encoder: the word of a command, unused fields written as 0 (R65, R69). -/
def encode : Instr → Word
  | .nop => commandWord 0x0 0 0 0
  | .combine i16 i32 => commandWord 0x1 0 0 (BitVec.ofInt 16 i16 ++ BitVec.ofInt 32 i32)
  | .load len data => commandWord 0x2 (BitVec.ofNat 4 len) 0 data
  | .reverse => commandWord 0x3 0 0 0
  | .toSingle => commandWord 0x4 0 0 0
  | .toDouble => commandWord 0x5 0 0 0
  | .value => commandWord 0x6 0 0 0
  | .getSign => commandWord 0x7 0 0 0
  | .getExp => commandWord 0x8 0 0 0
  | .getBuf => commandWord 0x9 0 0 0
  | .reservedA => commandWord 0xA 0 0 0
  | .reservedB => commandWord 0xB 0 0 0
  | .reservedC => commandWord 0xC 0 0 0
  | .reservedD => commandWord 0xD 0 0 0
  | .reservedE => commandWord 0xE 0 0 0
  | .reservedF => commandWord 0xF 0 0 0

/-- The bits of a word that the decoder reads for a command: OP, and the operand fields of R62 and R64. -/
def liveMask : Instr → Word
  | .nop => 0xF000000000000000
  | .combine _ _ => 0xF000FFFFFFFFFFFF
  | .load _ _ => 0xFF00FFFFFFFFFFFF
  | .reverse => 0xF000000000000000
  | .toSingle => 0xF000000000000000
  | .toDouble => 0xF000000000000000
  | .value => 0xF000000000000000
  | .getSign => 0xF000000000000000
  | .getExp => 0xF000000000000000
  | .getBuf => 0xF000000000000000
  | .reservedA => 0xF000000000000000
  | .reservedB => 0xF000000000000000
  | .reservedC => 0xF000000000000000
  | .reservedD => 0xF000000000000000
  | .reservedE => 0xF000000000000000
  | .reservedF => 0xF000000000000000

/-- What the decoder reads from an instruction of `nbits` bits whose bits are `w`, numbered as
spec/opcode_table.json numbers them. A command is one 64-bit word (R60), so a longer one is no command. -/
def decodeTableWord (nbits w : Nat) : Option Instr :=
  if nbits ≤ 64 then some (decode (BitVec.ofNat 64 (w % 2 ^ nbits))) else none

end Sys2Proof
end

