-- ==== Sys2Proof/Machine/State.lean ====
section
/-!
DEFINITION. The state of real48_decoder (spec/10_state.md R20), its ports (R28), its status names (spec/60_exceptions.md
R131), and the state after reset (R32).
-/

namespace Sys2Proof.Machine

/-- The values of the input ports at one rising edge of `clk` (R28). -/
structure Pins where
  /-- `rst`: synchronous reset, active high (R150). -/
  rst : Bool
  /-- `cmd_valid`: the host presents a command. -/
  cmdValid : Bool
  /-- `cmd_word`: the command word (R60). -/
  cmdWord : Word
deriving DecidableEq, Repr

/-- The values of the output ports (R28). -/
structure PortOutputs where
  /-- `cmd_ready`. -/
  cmdReady : Bool
  /-- `rsp_valid`. -/
  rspValid : Bool
  /-- `rsp_status`. -/
  rspStatus : BitVec 3
  /-- `rsp_data`. -/
  rspData : Word
deriving DecidableEq, Repr

/-- The named status codes (R131). Code 7 has no name and is never produced. -/
inductive Status where
  /-- 0: success. -/
  | ok
  /-- 1: COMBINE's 16-bit integer is out of range (R132). -/
  | range
  /-- 2: LOAD's byte count is not 6 (R133). -/
  | length
  /-- 3: a command that reads the buffer while VALID = 0 (R134). -/
  | noBuffer
  /-- 4: TOSINGLE with exponent byte 1 (R135). -/
  | underflow
  /-- 5: a reserved opcode (R136). -/
  | illegal
  /-- 6: reserved for the variant P_EXP255 = RAISE, never produced by this hardware (R137). -/
  | infinity
deriving DecidableEq, Repr

/-- Reasons the block stops: none. Every error is a status in a response, and the block "never hangs and never drops a
command" (R121, R130); so there is no constructor, nobody raises one, and that is exact (log entry 10). -/
inductive Fault where
deriving DecidableEq, Repr

/-- Reasons the model has no meaning for a command. -/
inductive Refusal where
  /-- Raised by an arm of `exec` whose command has no meaning yet, which is safe. No arm raises it now. -/
  | notModelled (mnemonic : String)
deriving DecidableEq, Repr

/-- The state: R20's seven registers, and the input the host drives at the coming edges. -/
structure State where
  /-- BUF (R21): the six bytes `{B[0], ..., B[5]}`. -/
  buf : Bytes6
  /-- SIGN (R22): the cached sign. -/
  sign : BitVec 1
  /-- EXP (R23): the cached exponent. -/
  exp : BitVec 8
  /-- VALID (R25): BUF holds a buffer a LOAD placed there. -/
  valid : Bool
  /-- RSP_VALID (R29): a response is presented this cycle. -/
  rspValid : Bool
  /-- RSP_STATUS (R29, R131). -/
  rspStatus : BitVec 3
  /-- RSP_DATA (R29, R68). -/
  rspData : Word
  /-- The MODEL's own field (log entry 1): the input ports at the coming edges, the next edge first. After its end the
  port is idle. -/
  inputs : List Pins
deriving DecidableEq, Repr

/-- The state after reset (R32). BUF, SIGN and EXP have no reset value in the spec: 0 is the model's (DESIGN CHOICE, log
entry 3). No input is placed (log entry 2). -/
def State.reset : State where
  buf := 0
  sign := 0
  exp := 0
  valid := false
  rspValid := false
  rspStatus := 0
  rspData := 0
  inputs := []

end Sys2Proof.Machine
end

