-- ==== Sys2Proof/Machine/Flags.lean ====
section
/-!
DEFINITION. What the block's flags hold: the status codes of RSP_STATUS (spec/60_exceptions.md R131) and the cached
fields SIGN and EXP of a buffer (spec/10_state.md R22, R23).
-/

namespace Sys2Proof.Machine

/-- The 3-bit code of a status (R131). -/
def statusCode : Status → BitVec 3
  | .ok => 0
  | .range => 1
  | .length => 2
  | .noBuffer => 3
  | .underflow => 4
  | .illegal => 5
  | .infinity => 6

/-- The value SIGN caches: `BUF[47]`, that is `B[0][7]` (R22). -/
def signOf (w : Bytes6) : BitVec 1 := w.extractLsb' 47 1

/-- The value EXP caches: `BUF[7:0]`, that is `B[5]` (R23). -/
def expOf (w : Bytes6) : BitVec 8 := w.extractLsb' 0 8

end Sys2Proof.Machine
end

