-- ==== Sys2Proof/Machine/Operands.lean ====
section
/-!
DEFINITION. The byte, integer and mantissa views of a 48-bit buffer or field: spec/00_scope.md R8, R9 and
spec/42_decoder_conversions.md R100, R101.
-/

namespace Sys2Proof.Machine

/-- Byte `B[i]` of a 48-bit value, `W[47-8i : 40-8i]`, for `i` in 0..5 (R8). -/
def byteOf (w : Bytes6) (i : Nat) : Byte := w.extractLsb' (40 - 8 * i) 8

/-- The 48-bit value of six bytes, `{B[0], ..., B[5]}` (R8). -/
def ofBytes (b0 b1 b2 b3 b4 b5 : Byte) : Bytes6 := b0 ++ b1 ++ b2 ++ b3 ++ b4 ++ b5

/-- `tc_16(x)`: the 16-bit two's-complement encoding (R9). -/
def tc16 (x : Int) : BitVec 16 := BitVec.ofInt 16 x

/-- `tc_32(x)`: the 32-bit two's-complement encoding (R9). -/
def tc32 (x : Int) : BitVec 32 := BitVec.ofInt 32 x

/-- `be_2(v)`: the big-endian bytes of a 16-bit pattern (R9). -/
def be2 (v : BitVec 16) : List Byte := [v.extractLsb' 8 8, v.extractLsb' 0 8]

/-- `be_4(v)`: the big-endian bytes of a 32-bit pattern (R9). -/
def be4 (v : BitVec 32) : List Byte :=
  [v.extractLsb' 24 8, v.extractLsb' 16 8, v.extractLsb' 8 8, v.extractLsb' 0 8]

/-- The six bytes of a buffer, `B[0]` first (R8). -/
def bytesOf (w : Bytes6) : List Byte :=
  [byteOf w 0, byteOf w 1, byteOf w 2, byteOf w 3, byteOf w 4, byteOf w 5]

/-- The buffer with its byte order reversed: new `B[i]` = old `B[5-i]` (R91). -/
def reverseBytes (w : Bytes6) : Bytes6 :=
  ofBytes (byteOf w 5) (byteOf w 4) (byteOf w 3) (byteOf w 2) (byteOf w 1) (byteOf w 0)

/-- `M23 = BUF[46:24]`, the single mantissa (R100). -/
def mant23 (w : Bytes6) : BitVec 23 := w.extractLsb' 24 23

/-- `M39 = BUF[46:8]`, the source mantissa (R101). -/
def mant39 (w : Bytes6) : BitVec 39 := w.extractLsb' 8 39

/-- `F52 = {M39, 13'b0}`, the double fraction (R101). -/
def frac52 (w : Bytes6) : BitVec 52 := mant39 w ++ 0#13

/-- The declared range of COMBINE's 16-bit integer, asymmetric as the source has it (R6, R81). -/
def int16InRange (x : Int) : Bool := decide (-32767 ≤ x) && decide (x ≤ 32767)

/-- The declared range of COMBINE's 32-bit integer (R6, R82). -/
def int32InRange (x : Int) : Bool := decide (-2147483648 ≤ x) && decide (x ≤ 2147483647)

end Sys2Proof.Machine
end

