-- ==== Sys2Proof/Machine/Ops.lean ====
section
/-!
DEFINITION. The operations every command is made of: `respond` and `raise` (spec/00_scope.md R12), the NO_BUFFER check
(spec/60_exceptions.md R134), writing the buffer with its cached fields (spec/10_state.md R24), and what a clock
edge does when it accepts no command (R29, R150).
-/

namespace Sys2Proof.Machine

/-- `respond(status, data)`: the response of the current command (R12, R29). -/
def respond (st : Status) (data : Word) (s : State) : State :=
  { s with rspValid := true, rspStatus := statusCode st, rspData := data }

/-- `raise <Status>`: TAKING AN ERROR, the block's only exception (R12, R130, R139). The command completes with the
error's code and data 0, and no other register is written. There is no return from it (R140): the next command
runs on the state this leaves. -/
def raise (st : Status) (s : State) : State := respond st 0 s

/-- End the command with a result: its data, or the error it raises. -/
def complete (r : Except Status Word) (s : State) : Host.Outcome State Fault Refusal :=
  match r with
  | .ok data => .next (respond .ok data s)
  | .error e => .next (raise e s)

/-- The first check of every command that reads the buffer: NO_BUFFER when VALID = 0 (R134), whatever the stale
registers hold (R138). -/
def withBuffer (s : State) (k : Host.Outcome State Fault Refusal) : Host.Outcome State Fault Refusal :=
  match s.valid with
  | true => k
  | false => .next (raise .noBuffer s)

/-- `BUF <- v`, with SIGN and EXP rewritten from the new BUF in the same step (R24). -/
def writeBuf (v : Bytes6) (s : State) : State :=
  { s with buf := v, sign := signOf v, exp := expOf v }

/-- `VALID <- 1` (R25, R90). -/
def setValid (s : State) : State := { s with valid := true }

/-- A rising edge with `rst = 0` that accepts no command: RSP_VALID <- 0, all else keeps its value (R29). -/
def idleEdge (s : State) : State := { s with rspValid := false }

/-- A rising edge with `rst = 1`: VALID and the response registers are cleared, BUF, SIGN and EXP are not written
(R150). -/
def resetEdge (s : State) : State :=
  { s with valid := false, rspValid := false, rspStatus := 0, rspData := 0 }

/-- `cmd_ready = ~rst` (R28). -/
def cmdReady (p : Pins) : Bool := !p.rst

/-- A command is accepted when `cmd_valid = 1` and `cmd_ready = 1` (R28). -/
def accepted (p : Pins) : Bool := p.cmdValid && cmdReady p

/-- The output ports in a cycle in which the input ports hold `p` (R28). -/
def outputs (p : Pins) (s : State) : PortOutputs where
  cmdReady := cmdReady p
  rspValid := s.rspValid
  rspStatus := s.rspStatus
  rspData := s.rspData

end Sys2Proof.Machine
end

