-- ==== Sys2Proof/Machine/Control.lean ====
section
/-!
DEFINITION. The control commands: NOP and the reserved opcodes (spec/43_control.md R120, R121).
-/

namespace Sys2Proof.Machine

/-- NOP (R120): respond OK with data 0, whatever VALID holds. -/
def execNop (s : State) : Host.Outcome State Fault Refusal := .next (respond .ok 0 s)

/-- Reserved opcode 0xA (R121): the command completes with status ILLEGAL, before any other condition. -/
def execReservedA (s : State) : Host.Outcome State Fault Refusal := .next (raise .illegal s)

/-- Reserved opcode 0xB (R121): the command completes with status ILLEGAL, before any other condition. -/
def execReservedB (s : State) : Host.Outcome State Fault Refusal := .next (raise .illegal s)

/-- Reserved opcode 0xC (R121): the command completes with status ILLEGAL, before any other condition. -/
def execReservedC (s : State) : Host.Outcome State Fault Refusal := .next (raise .illegal s)

/-- Reserved opcode 0xD (R121): the command completes with status ILLEGAL, before any other condition. -/
def execReservedD (s : State) : Host.Outcome State Fault Refusal := .next (raise .illegal s)

/-- Reserved opcode 0xE (R121): the command completes with status ILLEGAL, before any other condition. -/
def execReservedE (s : State) : Host.Outcome State Fault Refusal := .next (raise .illegal s)

/-- Reserved opcode 0xF (R121): the command completes with status ILLEGAL, before any other condition. -/
def execReservedF (s : State) : Host.Outcome State Fault Refusal := .next (raise .illegal s)

end Sys2Proof.Machine
end

