-- ==== Sys2Proof/Config.lean ====
section
/-!
DEFINITION. The implementation parameters of spec/00_scope.md R6 that a model may take as arguments, at this
hardware's values, and the one free value of the model (the bits of a NaN that IEEE-754 leaves open).
-/

namespace Sys2Proof.Config

/-- `P_EXP255` (R6, R107): what TOSINGLE and TODOUBLE do with exponent byte 255. -/
inductive Exp255 where
  /-- 255 is an ordinary finite exponent: this hardware. -/
  | passthrough
  /-- The variant of R107 that raises INFINITY: not this hardware. -/
  | raise
deriving DecidableEq, Repr

/-- `P_VALUE_ZERO_SIGN` (R6, R108): the sign of VALUE's zero when the sign bit is 1. -/
inductive ZeroSign where
  /-- VALUE of a zero-exponent buffer with sign 1 is -0.0: this hardware. -/
  | signed
  /-- The alternative: +0.0. -/
  | positive
deriving DecidableEq, Repr

/-- This hardware takes R107's choice (a). -/
def exp255 : Exp255 := .passthrough

/-- This hardware's VALUE keeps the sign of zero (R108). -/
def valueZeroSign : ZeroSign := .signed

/-- FREE VALUE (log entry 7). The sign (bit 51) and the payload (bits 50..0) of the NaN that an arithmetic
operation of R11 gives for two operands: IEEE-754 leaves both open, so nothing constrains them. No command
reaches a NaN (R111). -/
opaque nanBits : Word → Word → BitVec 52

end Sys2Proof.Config
end

