-- ==== Sys2Proof/Machine/Float64.lean ====
section
/-!
DEFINITION. IEEE-754 values and binary64 arithmetic, rounding to nearest, ties to even: the primitives `as_f32`, `as_f64`,
`fadd`, `fmul`, `fdiv`, `fneg` and `pow2` of spec/00_scope.md R10 and R11. A binary64 value is held as its encoding,
since every result of the block is an encoding (R10). Each operation computes exactly on integers and rounds once.
-/

namespace Sys2Proof.Machine

/-- What an IEEE-754 encoding stands for. `finite s m e` is `(-1)^s × m × 2^e`. -/
inductive FloatClass where
  | nan
  | infinite (sign : Bool)
  | finite (sign : Bool) (mant : Nat) (exp : Int)
deriving DecidableEq, Repr

/-- The class of a binary64 encoding: sign bit 63, exponent bits 62..52, fraction bits 51..0 (R10). -/
def f64Class (p : Word) : FloatClass :=
  let s := p.getLsbD 63
  let e := (p.extractLsb' 52 11).toNat
  let f := (p.extractLsb' 0 52).toNat
  if e = 2047 then (if f = 0 then .infinite s else .nan)
  else if e = 0 then .finite s f (-1074)
  else .finite s (2 ^ 52 + f) ((e : Int) - 1075)

/-- The class of a binary32 encoding: sign bit 31, exponent bits 30..23, fraction bits 22..0 (R10). -/
def f32Class (p : BitVec 32) : FloatClass :=
  let s := p.getLsbD 31
  let e := (p.extractLsb' 23 8).toNat
  let f := (p.extractLsb' 0 23).toNat
  if e = 255 then (if f = 0 then .infinite s else .nan)
  else if e = 0 then .finite s f (-149)
  else .finite s (2 ^ 23 + f) ((e : Int) - 150)

/-- The real number a class stands for, where it is finite. -/
def classValue : FloatClass → Option ℚ
  | .nan => none
  | .infinite _ => none
  | .finite s m e => some ((if s then -1 else 1) * (m : ℚ) * 2 ^ e)

/-- `as_f64(p)` as a real number, for a finite `p` (R10). -/
def asF64 (p : Word) : Option ℚ := classValue (f64Class p)

/-- `as_f32(p)` as a real number, for a finite `p` (R10). -/
def asF32 (p : BitVec 32) : Option ℚ := classValue (f32Class p)

/-- The integer nearest to `n / d`, ties to even. -/
def divNearestEven (n d : Nat) : Nat :=
  let q := n / d
  let r := n % d
  if 2 * r < d then q
  else if d < 2 * r then q + 1
  else q + q % 2

/-- The floor of the binary logarithm of `n / d`, for `n` and `d` not 0. -/
def log2Ratio (n d : Nat) : Int :=
  let k : Int := (Nat.log2 n : Int) - Nat.log2 d
  if d * 2 ^ k.toNat ≤ n * 2 ^ (-k).toNat then k else k - 1

/-- A sign bit in front of 63 magnitude bits. -/
def f64Signed (s : Bool) (mag : Nat) : Word := BitVec.ofBool s ++ BitVec.ofNat 63 mag

/-- The magnitude bits of infinity: exponent field 2047, fraction 0. -/
def f64InfBits : Nat := 2047 * 2 ^ 52

/-- `(-1)^s × n / d × 2^e` rounded to binary64, to nearest, ties to even (R11). The unit in the last place is `2^q`, with
`q` at least -1074 (subnormals), and an overflow gives infinity. The exponent field is added, not joined, so
that a rounding up to the next power of two carries into it. -/
def f64Round (s : Bool) (n d : Nat) (e : Int) : Word :=
  if n = 0 then f64Signed s 0
  else
    let q : Int := max (log2Ratio n d + e - 52) (-1074)
    let m := divNearestEven (n * 2 ^ (e - q).toNat) (d * 2 ^ (q - e).toNat)
    let mag := (q + 1074).toNat * 2 ^ 52 + m
    f64Signed s (if f64InfBits ≤ mag then f64InfBits else mag)

/-- A quiet NaN for the operands `a` and `b`; its sign and payload are a free value (log entry 7). -/
def f64NaN (a b : Word) : Word :=
  let free := Config.nanBits a b
  free.extractLsb' 51 1 ++ 0xFFF#12 ++ free.extractLsb' 0 51

/-- Infinity. -/
def f64Inf (s : Bool) : Word := f64Signed s f64InfBits

/-- A finite value's integer at a common exponent `e`, no greater than its own. -/
def scaledInt (s : Bool) (m : Nat) (em e : Int) : Int :=
  (if s then -1 else 1) * ((m * 2 ^ (em - e).toNat : Nat) : Int)

/-- `fadd` (R11): binary64 addition. An exact zero sum is +0 unless both operands are negative. -/
def fadd (a b : Word) : Word :=
  match f64Class a, f64Class b with
  | .nan, _ => f64NaN a b
  | _, .nan => f64NaN a b
  | .infinite s, .infinite t => if s = t then f64Inf s else f64NaN a b
  | .infinite s, .finite _ _ _ => f64Inf s
  | .finite _ _ _, .infinite t => f64Inf t
  | .finite s m em, .finite t n en =>
    let e := min em en
    let x := scaledInt s m em e + scaledInt t n en e
    if x = 0 then f64Signed (s && t) 0 else f64Round (decide (x < 0)) x.natAbs 1 e

/-- `fmul` (R11): binary64 multiplication. -/
def fmul (a b : Word) : Word :=
  match f64Class a, f64Class b with
  | .nan, _ => f64NaN a b
  | _, .nan => f64NaN a b
  | .infinite s, .infinite t => f64Inf (s ^^ t)
  | .infinite s, .finite t n _ => if n = 0 then f64NaN a b else f64Inf (s ^^ t)
  | .finite s m _, .infinite t => if m = 0 then f64NaN a b else f64Inf (s ^^ t)
  | .finite s m em, .finite t n en => f64Round (s ^^ t) (m * n) 1 (em + en)

/-- `fdiv` (R11): binary64 division. -/
def fdiv (a b : Word) : Word :=
  match f64Class a, f64Class b with
  | .nan, _ => f64NaN a b
  | _, .nan => f64NaN a b
  | .infinite _, .infinite _ => f64NaN a b
  | .infinite s, .finite t _ _ => f64Inf (s ^^ t)
  | .finite s _ _, .infinite t => f64Signed (s ^^ t) 0
  | .finite s m em, .finite t n en =>
    if n = 0 then (if m = 0 then f64NaN a b else f64Inf (s ^^ t))
    else f64Round (s ^^ t) m n (em - en)

/-- `fneg` (R11): flips the sign bit. -/
def fneg (a : Word) : Word := a ^^^ 0x8000000000000000

/-- `pow2(k)`: the binary64 value `2^k`, exact for `-1022 ≤ k ≤ 1023` (R11). -/
def pow2 (k : Int) : Word := f64Round false 1 1 k

/-- The binary64 value of a natural number, such as a byte: exact below `2^53`. -/
def f64OfNat (n : Nat) : Word := f64Round false n 1 0

end Sys2Proof.Machine
end

