-- ==== Sys2Proof/Machine/Conversions.lean ====
section
/-!
DEFINITION. The Decoder's conversions TOSINGLE, TODOUBLE and VALUE (spec/42_decoder_conversions.md R102 to R113).
-/

namespace Sys2Proof.Machine

open Sys2Proof.Config (Exp255 ZeroSign)

/-- `P32 = {SIGN, bits8(EXP - 2), M23}` (R102). -/
def singlePattern (sign : BitVec 1) (exp : BitVec 8) (m23 : BitVec 23) : BitVec 32 :=
  sign ++ (exp - 2#8) ++ m23

/-- `P64 = {SIGN, bits11(EXP + 894), F52}` (R101, R106). -/
def doublePattern (sign : BitVec 1) (exp : BitVec 8) (f52 : BitVec 52) : Word :=
  sign ++ (exp.setWidth 11 + 894#11) ++ f52

/-- INFINITY is raised for exponent byte 255 in the variant P_EXP255 = RAISE alone (R107). -/
def raisesInfinity (p : Exp255) (exp : BitVec 8) : Bool := decide (p = .raise) && exp == 255#8

/-- TOSINGLE's result (R102): +0.0 for exponent byte 0 whatever the sign (R103), UNDERFLOW for 1 (R104), the literal
formula for 2 (R105), and the low mantissa bytes dropped (R110). -/
def singleResult (p : Exp255) (sign : BitVec 1) (exp : BitVec 8) (m23 : BitVec 23) : Except Status Word :=
  if exp = 0#8 then .ok 0
  else if exp = 1#8 then .error .underflow
  else if raisesInfinity p exp then .error .infinity
  else .ok ((singlePattern sign exp m23).setWidth 64)

/-- TODOUBLE's result (R106): +0.0 for exponent byte 0, else the exact pattern. -/
def doubleResult (p : Exp255) (sign : BitVec 1) (exp : BitVec 8) (f52 : BitVec 52) : Except Status Word :=
  if exp = 0#8 then .ok 0
  else if raisesInfinity p exp then .error .infinity
  else .ok (doublePattern sign exp f52)

/-- A byte as an exact binary64 integer (R108). -/
def f64OfByte (b : Byte) : Word := f64OfNat b.toNat

/-- One stage of VALUE's nested division, `(byte + t) / 256.0` (R108). -/
def valueStage (byte t : Word) : Word := fdiv (fadd byte t) (f64OfNat 256)

/-- VALUE's `f` (R108): from `t4 = B[4] / 256.0` up through bytes 3, 2, 1 and `B[0] mod 128`. -/
def valueFraction (w : Bytes6) : Word :=
  let t4 := fdiv (f64OfByte (byteOf w 4)) (f64OfNat 256)
  let t3 := valueStage (f64OfByte (byteOf w 3)) t4
  let t2 := valueStage (f64OfByte (byteOf w 2)) t3
  let t1 := valueStage (f64OfByte (byteOf w 1)) t2
  valueStage (f64OfNat ((byteOf w 0).toNat % 128)) t1

/-- VALUE's `m` before the sign is applied (R108): +0.0 for exponent byte 0, else `1.0 + 2.0 × f`. -/
def valueMagnitude (w : Bytes6) : Word :=
  if byteOf w 5 = 0#8 then f64OfNat 0
  else fadd (f64OfNat 1) (fmul (f64OfNat 2) (valueFraction w))

/-- VALUE's sign `s`: 1 when `B[0] ≥ 128` (R108). -/
def valueNegative (w : Bytes6) : Bool := decide (128 ≤ (byteOf w 0).toNat)

/-- VALUE's result (R108), read from the bytes of BUF and not from SIGN and EXP: `2^k × m`, negated when `s = 1`; the
negation reaches the zero branch too when P_VALUE_ZERO_SIGN = SIGNED. -/
def valueResult (z : ZeroSign) (w : Bytes6) : Word :=
  let k : Int := ((byteOf w 5).toNat : Int) - 129
  let m := valueMagnitude w
  let negate := valueNegative w && !(decide (z = .positive) && byteOf w 5 == 0#8)
  fmul (pow2 k) (if negate then fneg m else m)

/-- TOSINGLE (R102): convert to binary32. -/
def execToSingle (s : State) : Host.Outcome State Fault Refusal :=
  withBuffer s (complete (singleResult Config.exp255 s.sign s.exp (mant23 s.buf)) s)

/-- TODOUBLE (R106): convert to binary64. -/
def execToDouble (s : State) : Host.Outcome State Fault Refusal :=
  withBuffer s (complete (doubleResult Config.exp255 s.sign s.exp (frac52 s.buf)) s)

/-- VALUE (R108): the arithmetic reconstruction as binary64. -/
def execValue (s : State) : Host.Outcome State Fault Refusal :=
  withBuffer s (.next (respond .ok (valueResult Config.valueZeroSign s.buf) s))

end Sys2Proof.Machine
end

