-- ==== Sys2Proof/Machine/DecoderBuffer.lean ====
section
/-!
DEFINITION. The Decoder's buffer commands LOAD, REVERSE, GETSIGN, GETEXP and GETBUF (spec/41_decoder_buffer.md R90 to
R94).
-/

namespace Sys2Proof.Machine

/-- LOAD (R90): the byte count must be 6; a failed LOAD leaves BUF, SIGN, EXP and VALID as they were (R133). -/
def execLoad (len : Nat) (data : Bytes6) (s : State) : Host.Outcome State Fault Refusal :=
  if len = 6 then .next (respond .ok 0 (setValid (writeBuf data s)))
  else .next (raise .length s)

/-- REVERSE (R91): the buffer's byte order is reversed in place, and SIGN and EXP follow the new orientation. -/
def execReverse (s : State) : Host.Outcome State Fault Refusal :=
  withBuffer s (.next (respond .ok 0 (writeBuf (reverseBytes s.buf) s)))

/-- GETSIGN (R92): `zext_64(SIGN)`. -/
def execGetSign (s : State) : Host.Outcome State Fault Refusal :=
  withBuffer s (.next (respond .ok (s.sign.setWidth 64) s))

/-- GETEXP (R93): `zext_64(EXP)`, with no rebias. -/
def execGetExp (s : State) : Host.Outcome State Fault Refusal :=
  withBuffer s (.next (respond .ok (s.exp.setWidth 64) s))

/-- GETBUF (R94): `zext_64(BUF)`, in the current orientation. -/
def execGetBuf (s : State) : Host.Outcome State Fault Refusal :=
  withBuffer s (.next (respond .ok (s.buf.setWidth 64) s))

end Sys2Proof.Machine
end

