-- ==== Sys2Proof/Machine/Reassembler.lean ====
section
/-!
DEFINITION. The Reassembler's command COMBINE (spec/40_reassembler.md R80 to R84).
-/

namespace Sys2Proof.Machine

/-- `RES48 = {tc_32(i32), tc_16(i16)}` (R80): the bytes `be_4(tc_32(i32)) ++ be_2(tc_16(i16))` (R83). -/
def res48 (i16 i32 : Int) : Bytes6 := tc32 i32 ++ tc16 i16

/-- COMBINE's result, a pure function of its operands (R84). In a command word the 16-bit check fails for -32768 alone
(R81) and the 32-bit check never does (R82). -/
def combineResult (i16 i32 : Int) : Except Status Word :=
  if int16InRange i16 && int32InRange i32 then .ok ((res48 i16 i32).setWidth 64) else .error .range

/-- COMBINE (R80): no register but the response registers is written. -/
def execCombine (i16 i32 : Int) (s : State) : Host.Outcome State Fault Refusal :=
  complete (combineResult i16 i32) s

end Sys2Proof.Machine
end

