-- ==== Sys2Proof/Machine/Dispatch.lean ====
section
/-!
DEFINITION. The dispatch: one arm per command, each a direct call of its meaning (spec/30_encoding.md R65).
-/

namespace Sys2Proof.Machine

def exec (i : Instr) (s : State) : Host.Outcome State Fault Refusal :=
  match i with
  | .nop => Sys2Proof.Machine.execNop s
  | .combine i16 i32 => Sys2Proof.Machine.execCombine i16 i32 s
  | .load len data => Sys2Proof.Machine.execLoad len data s
  | .reverse => Sys2Proof.Machine.execReverse s
  | .toSingle => Sys2Proof.Machine.execToSingle s
  | .toDouble => Sys2Proof.Machine.execToDouble s
  | .value => Sys2Proof.Machine.execValue s
  | .getSign => Sys2Proof.Machine.execGetSign s
  | .getExp => Sys2Proof.Machine.execGetExp s
  | .getBuf => Sys2Proof.Machine.execGetBuf s
  | .reservedA => Sys2Proof.Machine.execReservedA s
  | .reservedB => Sys2Proof.Machine.execReservedB s
  | .reservedC => Sys2Proof.Machine.execReservedC s
  | .reservedD => Sys2Proof.Machine.execReservedD s
  | .reservedE => Sys2Proof.Machine.execReservedE s
  | .reservedF => Sys2Proof.Machine.execReservedF s

end Sys2Proof.Machine
end

