-- ==== Sys2Proof/Machine/Edge.lean ====
section
/-!
DEFINITION. What one rising edge of `clk` does with the input ports (spec/10_state.md R28, R29; spec/70_reset_and_hazards.md R150,
R151), and how the host puts a command on them.
-/

namespace Sys2Proof.Machine

/-- One rising edge with the input ports at `p`: reset wins (R150, R151), an accepted command is performed whole (R48), and
otherwise the response is withdrawn (R29). -/
def edge (p : Pins) (s : State) : Host.Outcome State Fault Refusal :=
  match p.rst with
  | true => .next (resetEdge s)
  | false =>
    match accepted p with
    | true => exec (decode p.cmdWord) s
    | false => .next (idleEdge s)

/-- The input ports when the host issues a command word (R28). -/
def issue (c : Word) : Pins := ⟨false, true, c⟩

/-- `s` with the command word `c` on the input ports at the next edge, in place of what stood there (log entry 2). Later
edges keep their inputs. -/
def placeCommand (s : State) (c : Word) : State := { s with inputs := issue c :: s.inputs.tail }

end Sys2Proof.Machine
end

