-- ==== Sys2Proof/Machine/Step.lean ====
section
/-!
DEFINITION. One step: one rising edge of `clk` (spec/10_state.md R28, R29), and the placing of a command where the next step
takes it.
-/

namespace Sys2Proof.Machine

/-- One step of the machine: the next rising edge, with the input ports as the host drives them (log entry 1). Past the
end of the inputs the port is idle. -/
def step (s : State) : Host.Outcome State Fault Refusal :=
  match s.inputs with
  | [] => .next (idleEdge s)
  | p :: rest => edge p { s with inputs := rest }

/-- `s` with the command of `nbits` bits `w` issued at the next edge (log entry 2). -/
def State.withFetchWord (s : State) (nbits w : Nat) : State := placeCommand s (BitVec.ofNat 64 (w % 2 ^ nbits))

end Sys2Proof.Machine
end

