-- ==== Sys2Proof/Machine/Assembler.lean ====
section
/-!
DEFINITION. The assembler's forms and pseudo-instructions (spec/30_encoding.md R69, R70): which command words a line of a
command stream stands for. This is tooling in front of the block, not part of its step.
-/

namespace Sys2Proof.Machine

/-- A line of a command stream, with its operands read (R69, R70). -/
inductive AsmLine where
  | nop
  | combine (i16 i32 : Int)
  | load (b0 b1 b2 b3 b4 b5 : Byte)
  /-- `LOAD.L<n>`: LOAD with the byte count `n`. -/
  | loadLen (n : Nat) (b0 b1 b2 b3 b4 b5 : Byte)
  | reverse
  | toSingle
  | toDouble
  | value
  | getSign
  | getExp
  | getBuf
  /-- `.word`: a raw 64-bit word. -/
  | word (c : Word)
  /-- `LOADREV`: LOAD, then REVERSE. -/
  | loadRev (b0 b1 b2 b3 b4 b5 : Byte)
  /-- `LOADPAIR`: LOAD of COMBINE's result. -/
  | loadPair (i16 i32 : Int)
  /-- `LOADPAIRREV`: LOADPAIR, then REVERSE. -/
  | loadPairRev (i16 i32 : Int)
deriving DecidableEq, Repr

/-- The word of one command, refused when an operand does not fit its field (R69). -/
def assembleInstr (i : Instr) : Option Word :=
  if i.wellFormed then some (encode i) else none

/-- The LOAD of COMBINE's bytes, computed at assembly time; refused when `i16 = -32768` or either integer is outside its
declared range (R70). -/
def assemblePair (i16 i32 : Int) : Option Word :=
  if int16InRange i16 && int32InRange i32 then some (encode (.load 6 (res48 i16 i32))) else none

/-- The command words of a line, or none where the assembler refuses it (R69, R70). -/
def assemble : AsmLine → Option (List Word)
  | .nop => (assembleInstr .nop).map fun c => [c]
  | .combine i16 i32 => (assembleInstr (.combine i16 i32)).map fun c => [c]
  | .load b0 b1 b2 b3 b4 b5 => (assembleInstr (.load 6 (ofBytes b0 b1 b2 b3 b4 b5))).map fun c => [c]
  | .loadLen n b0 b1 b2 b3 b4 b5 => (assembleInstr (.load n (ofBytes b0 b1 b2 b3 b4 b5))).map fun c => [c]
  | .reverse => (assembleInstr .reverse).map fun c => [c]
  | .toSingle => (assembleInstr .toSingle).map fun c => [c]
  | .toDouble => (assembleInstr .toDouble).map fun c => [c]
  | .value => (assembleInstr .value).map fun c => [c]
  | .getSign => (assembleInstr .getSign).map fun c => [c]
  | .getExp => (assembleInstr .getExp).map fun c => [c]
  | .getBuf => (assembleInstr .getBuf).map fun c => [c]
  | .word c => some [c]
  | .loadRev b0 b1 b2 b3 b4 b5 =>
    (assembleInstr (.load 6 (ofBytes b0 b1 b2 b3 b4 b5))).map fun c => [c, encode .reverse]
  | .loadPair i16 i32 => (assemblePair i16 i32).map fun c => [c]
  | .loadPairRev i16 i32 => (assemblePair i16 i32).map fun c => [c, encode .reverse]

end Sys2Proof.Machine
end

