-- ==== Sys2Proof/Machine/AsmText.lean ====
section
/-!
DEFINITION. The text of an assembler line (spec/30_encoding.md R69, R70): one command per line, mnemonics case-insensitive, a
comment from the first semicolon. What R69 leaves open (blanks, the case of hex digits, decimal bytes) is in log entry 9.
Text is a list of characters, so that Lean's kernel can run the reader.
-/

namespace Sys2Proof.Machine

/-- A blank between the parts of a line: space or tab (DESIGN CHOICE, log entry 9). -/
def isBlank (c : Char) : Bool := c == ' ' || c == '\t'

/-- The line up to its comment (R69). -/
def dropComment : List Char → List Char
  | [] => []
  | c :: cs => if c == ';' then [] else c :: dropComment cs

/-- A piece of text without the blanks around it. -/
def trimBlanks (cs : List Char) : List Char :=
  ((cs.dropWhile isBlank).reverse.dropWhile isBlank).reverse

/-- The pieces between commas. -/
def splitCommas : List Char → List (List Char)
  | [] => [[]]
  | c :: cs =>
    if c == ',' then [] :: splitCommas cs
    else
      match splitCommas cs with
      | [] => [[c]]
      | p :: ps => (c :: p) :: ps

/-- The value of a digit in a base up to 16, either case of letter. -/
def digitValue (base : Nat) (c : Char) : Option Nat :=
  let n := c.toUpper.toNat
  let v := if 48 ≤ n ∧ n ≤ 57 then n - 48 else if 65 ≤ n ∧ n ≤ 70 then n - 55 else 16
  if v < base then some v else none

/-- A number in a base, continuing from `acc`. -/
def digitsFrom (base : Nat) : Nat → List Char → Option Nat
  | acc, [] => some acc
  | acc, c :: cs =>
    match digitValue base c with
    | some v => digitsFrom base (base * acc + v) cs
    | none => none

/-- A number in a base, at least one digit. -/
def readDigits (base : Nat) (cs : List Char) : Option Nat :=
  match cs with
  | [] => none
  | _ :: _ => digitsFrom base 0 cs

/-- A hex number `0x...` (R69). -/
def readHex : List Char → Option Nat
  | '0' :: x :: cs => if x == 'x' || x == 'X' then readDigits 16 cs else none
  | _ => none

/-- A decimal or hex number without sign (R69). -/
def readNat (cs : List Char) : Option Nat :=
  match readHex cs with
  | some n => some n
  | none => readDigits 10 cs

/-- A decimal or hex integer (R69). -/
def readInt : List Char → Option Int
  | '-' :: cs => (readNat cs).map fun n => -(n : Int)
  | cs => (readNat cs).map fun n => (n : Int)

/-- A byte operand, 0x00..0xFF (R69). -/
def readByte (cs : List Char) : Option Byte :=
  match readNat cs with
  | some n => if n < 256 then some (BitVec.ofNat 8 n) else none
  | none => none

/-- The operand of `.word`: a hex number of at most 64 bits (R69). -/
def readWord (cs : List Char) : Option Word :=
  match readHex cs with
  | some n => if n < 2 ^ 64 then some (BitVec.ofNat 64 n) else none
  | none => none

/-- A line's operands: the pieces between commas, or none at all. -/
def operands (cs : List Char) : List (List Char) :=
  match trimBlanks cs with
  | [] => []
  | c :: rest => (splitCommas (c :: rest)).map trimBlanks

/-- Apply a form that takes two integers. -/
def readPair (mk : Int → Int → AsmLine) : List (List Char) → Option AsmLine
  | [a, b] => do
    let x ← readInt a
    let y ← readInt b
    some (mk x y)
  | _ => none

/-- Apply a form that takes six bytes. -/
def readSix (mk : Byte → Byte → Byte → Byte → Byte → Byte → AsmLine) : List (List Char) → Option AsmLine
  | [a, b, c, d, e, f] => do
    let b0 ← readByte a
    let b1 ← readByte b
    let b2 ← readByte c
    let b3 ← readByte d
    let b4 ← readByte e
    let b5 ← readByte f
    some (mk b0 b1 b2 b3 b4 b5)
  | _ => none

/-- Apply a form that takes no operand. -/
def readNone (l : AsmLine) : List (List Char) → Option AsmLine
  | [] => some l
  | _ => none

/-- Apply `.word`, which takes one 64-bit word. -/
def readRaw : List (List Char) → Option AsmLine
  | [a] => (readWord a).map AsmLine.word
  | _ => none

/-- The byte count of `LOAD.L<n>`. -/
def readLoadLen : List Char → Option Nat
  | 'L' :: 'O' :: 'A' :: 'D' :: '.' :: 'L' :: n => readDigits 10 n
  | _ => none

/-- A line from its mnemonic in capitals and its operands (R69, R70). -/
def readForm (m : List Char) (ops : List (List Char)) : Option AsmLine :=
  if m = ['N', 'O', 'P'] then readNone .nop ops
  else if m = ['C', 'O', 'M', 'B', 'I', 'N', 'E'] then readPair .combine ops
  else if m = ['L', 'O', 'A', 'D'] then readSix .load ops
  else if m = ['R', 'E', 'V', 'E', 'R', 'S', 'E'] then readNone .reverse ops
  else if m = ['T', 'O', 'S', 'I', 'N', 'G', 'L', 'E'] then readNone .toSingle ops
  else if m = ['T', 'O', 'D', 'O', 'U', 'B', 'L', 'E'] then readNone .toDouble ops
  else if m = ['V', 'A', 'L', 'U', 'E'] then readNone .value ops
  else if m = ['G', 'E', 'T', 'S', 'I', 'G', 'N'] then readNone .getSign ops
  else if m = ['G', 'E', 'T', 'E', 'X', 'P'] then readNone .getExp ops
  else if m = ['G', 'E', 'T', 'B', 'U', 'F'] then readNone .getBuf ops
  else if m = ['.', 'W', 'O', 'R', 'D'] then readRaw ops
  else if m = ['L', 'O', 'A', 'D', 'R', 'E', 'V'] then readSix .loadRev ops
  else if m = ['L', 'O', 'A', 'D', 'P', 'A', 'I', 'R'] then readPair .loadPair ops
  else if m = ['L', 'O', 'A', 'D', 'P', 'A', 'I', 'R', 'R', 'E', 'V'] then readPair .loadPairRev ops
  else
    match readLoadLen m with
    | some n => readSix (.loadLen n) ops
    | none => none

/-- The command words of a line of text: none where the assembler refuses it, and no word for an empty line or a comment
alone. -/
def assembleText (line : List Char) : Option (List Word) :=
  match trimBlanks (dropComment line) with
  | [] => some []
  | cs =>
    let notBlank := fun c => !isBlank c
    match readForm ((cs.takeWhile notBlank).map Char.toUpper) (operands (cs.dropWhile notBlank)) with
    | some l => assemble l
    | none => none

end Sys2Proof.Machine
end

