-- ==== Sys2Proof/Machine/AsmWritten.lean ====
section
/-!
DEFINITION. How a line of a command stream is written (spec/30_encoding.md R69, R70): its mnemonic in capitals, a blank, and
its operands with commas between them. This is said without the reader of AsmText.lean, so that a statement can hold
the reader to it.
-/

namespace Sys2Proof.Machine

/-- `t` is a hex number `0x...` for `n`, with any number of leading zeros. -/
def HexText (n : Nat) (t : List Char) : Prop :=
  ∃ zeros, t = '0' :: 'x' :: (List.replicate zeros '0' ++ Nat.toDigits 16 n)

/-- `t` is a decimal or hex integer for `x` (R69). A minus sign stands before the number (for hex a DESIGN CHOICE, log
entry 9). -/
def IntText (x : Int) (t : List Char) : Prop :=
  ∃ d, (d = Nat.toDigits 10 x.natAbs ∨ HexText x.natAbs d) ∧ t = if x < 0 then '-' :: d else d

/-- Operands with a comma and `gap` spaces between them. -/
def commaSeparated (gap : Nat) : List (List Char) → List Char
  | [] => []
  | [t] => t
  | t :: u :: ts => t ++ ',' :: (List.replicate gap ' ' ++ commaSeparated gap (u :: ts))

/-- `t` is the mnemonic `m` with two integers. -/
def PairText (m : List Char) (x y : Int) (t : List Char) : Prop :=
  ∃ gap a b, IntText x a ∧ IntText y b ∧ t = m ++ ' ' :: commaSeparated gap [a, b]

/-- `t` is the mnemonic `m` with the bytes `bs`, in hex. -/
def BytesText (m : List Char) (bs : List Byte) (t : List Char) : Prop :=
  ∃ gap ts, List.Forall₂ (fun (b : Byte) u => HexText b.toNat u) bs ts ∧ t = m ++ ' ' :: commaSeparated gap ts

/-- `t` is a text of the line (R69, R70). -/
def LineText : AsmLine → List Char → Prop
  | .nop, t => t = ['N', 'O', 'P']
  | .combine x y, t => PairText ['C', 'O', 'M', 'B', 'I', 'N', 'E'] x y t
  | .load b0 b1 b2 b3 b4 b5, t => BytesText ['L', 'O', 'A', 'D'] [b0, b1, b2, b3, b4, b5] t
  | .loadLen n b0 b1 b2 b3 b4 b5, t =>
    BytesText (['L', 'O', 'A', 'D', '.', 'L'] ++ Nat.toDigits 10 n) [b0, b1, b2, b3, b4, b5] t
  | .reverse, t => t = ['R', 'E', 'V', 'E', 'R', 'S', 'E']
  | .toSingle, t => t = ['T', 'O', 'S', 'I', 'N', 'G', 'L', 'E']
  | .toDouble, t => t = ['T', 'O', 'D', 'O', 'U', 'B', 'L', 'E']
  | .value, t => t = ['V', 'A', 'L', 'U', 'E']
  | .getSign, t => t = ['G', 'E', 'T', 'S', 'I', 'G', 'N']
  | .getExp, t => t = ['G', 'E', 'T', 'E', 'X', 'P']
  | .getBuf, t => t = ['G', 'E', 'T', 'B', 'U', 'F']
  | .word c, t => ∃ h, HexText c.toNat h ∧ t = ['.', 'W', 'O', 'R', 'D', ' '] ++ h
  | .loadRev b0 b1 b2 b3 b4 b5, t => BytesText ['L', 'O', 'A', 'D', 'R', 'E', 'V'] [b0, b1, b2, b3, b4, b5] t
  | .loadPair x y, t => PairText ['L', 'O', 'A', 'D', 'P', 'A', 'I', 'R'] x y t
  | .loadPairRev x y, t => PairText ['L', 'O', 'A', 'D', 'P', 'A', 'I', 'R', 'R', 'E', 'V'] x y t

end Sys2Proof.Machine
end

