-- ==== Sys2Proof/Machine/Driver.lean ====
section
/-!
DEFINITION. The host's duties at the command port (spec/70_reset_and_hazards.md R157; spec/30_encoding.md R62): how a call of
the source becomes a command. The spec ASSUMES them of the host; the block's step does not depend on them (log entry 13).
-/

namespace Sys2Proof.Machine

/-- The LEN a host gives a sequence of `n` bytes: its length, or 15 when that is 15 or more (R62). -/
def lenFor (n : Nat) : Nat := if n < 15 then n else 15

/-- The LOAD a host issues for `from_bytes(buffer)`. What it puts into DATA for another length than six the spec does not
say, so it is any `filler`. -/
def fromBytesCommand (bs : List Byte) (filler : Bytes6) : Instr :=
  .load (lenFor bs.length)
    (match bs with
     | [b0, b1, b2, b3, b4, b5] => ofBytes b0 b1 b2 b3 b4 b5
     | _ => filler)

/-- The COMBINE a host issues for `combine(int16, int32)`, or none for an integer its field cannot hold, which the host
itself treats as the source's RangeError (R81, R82, R157). -/
def combineCommand (i16 i32 : Int) : Option Instr :=
  if -32768 ≤ i16 ∧ i16 ≤ 32767 ∧ -2147483648 ≤ i32 ∧ i32 ≤ 2147483647 then some (.combine i16 i32) else none

end Sys2Proof.Machine
end

