-- ==== Sys2Proof/Machine/Instances.lean ====
section
/-!
DEFINITION. Several instances of the block (spec/20_memory.md R53; spec/60_exceptions.md R144): each has a State and a
command port of its own, and they share nothing.
-/

namespace Sys2Proof.Machine

/-- One rising edge for instance `n` of a list of instances. -/
def stepInstance (n : Nat) (blocks : List State) : Host.Outcome (List State) Fault Refusal :=
  match blocks[n]? with
  | none => .next blocks
  | some s =>
    match step s with
    | .next t => .next (blocks.set n t)
    | .fault r => .fault r
    | .refused r => .refused r

end Sys2Proof.Machine
end

