-- ==== Sys2Proof/Machine/Real48.lean ====
section
/-!
DEFINITION. The number a real48 buffer stands for, as a rational: the value the conversions are compared with
(spec/10_state.md R23; spec/42_decoder_conversions.md R109, R110).
-/

namespace Sys2Proof.Machine

/-- `(-1)^SIGN`. -/
def signFactor (w : Bytes6) : ℚ := if signOf w = 1#1 then -1 else 1

/-- The value of a buffer: `(-1)^SIGN × (1 + M39/2^39) × 2^(EXP-129)` (R109), and zero for exponent byte 0 (R23). -/
def real48Value (w : Bytes6) : ℚ :=
  if expOf w = 0#8 then 0
  else signFactor w * (1 + ((mant39 w).toNat : ℚ) / 2 ^ 39) * 2 ^ (((expOf w).toNat : ℤ) - 129)

/-- The same with the 16 low mantissa bits dropped: `(-1)^SIGN × (1 + M23/2^23) × 2^(EXP-129)` (R110). -/
def real48Truncated (w : Bytes6) : ℚ :=
  signFactor w * (1 + ((mant23 w).toNat : ℚ) / 2 ^ 23) * 2 ^ (((expOf w).toNat : ℤ) - 129)

end Sys2Proof.Machine
end

