-- ==== Sys2Proof/Safety.lean ====
section
/-!
DEFINITION. What a good state of the block is, and when two states cannot be told apart: the terms the claims use.
-/

namespace Sys2Proof.Safety

open Sys2Proof.Machine

/-- The cache invariant (spec/10_state.md R24): while VALID = 1, SIGN and EXP are the fields of BUF. -/
def CacheCoherent (s : State) : Prop :=
  s.valid = true → s.sign = signOf s.buf ∧ s.exp = expOf s.buf

/-- A response the block can present: a status code of this hardware (codes 6 and 7 are never produced, spec/60_exceptions.md
R131, R137), and data 0 with every status other than OK (spec/30_encoding.md R68). -/
def ResponseLegal (s : State) : Prop :=
  s.rspStatus.toNat ≤ 5 ∧ (s.rspStatus ≠ 0#3 → s.rspData = 0#64)

/-- A good state: coherent caches and a legal response. -/
def Inv (s : State) : Prop := CacheCoherent s ∧ ResponseLegal s

/-- The Decoder's registers are as before (spec/60_exceptions.md R139). -/
def DecoderUnchanged (s t : State) : Prop :=
  t.buf = s.buf ∧ t.sign = s.sign ∧ t.exp = s.exp ∧ t.valid = s.valid

/-- Two states a host cannot tell apart, now or later: they agree on VALID, the response and the inputs, and on BUF, SIGN
and EXP where VALID = 1. While VALID = 0 those hold no defined value (spec/10_state.md R25). -/
def Indistinguishable (s t : State) : Prop :=
  s.valid = t.valid ∧ s.rspValid = t.rspValid ∧ s.rspStatus = t.rspStatus ∧ s.rspData = t.rspData ∧
  s.inputs = t.inputs ∧ (s.valid = true → s.buf = t.buf ∧ s.sign = t.sign ∧ s.exp = t.exp)

/-- `s` with a response presented, status code `code` and data `data`, and nothing else changed. -/
def responded (s : State) (code : BitVec 3) (data : Word) : State :=
  { s with rspValid := true, rspStatus := code, rspData := data }

/-- The response of a state: status and data (spec/30_encoding.md R67). -/
def response (s : State) : BitVec 3 × Word := (s.rspStatus, s.rspData)

end Sys2Proof.Safety
end

