-- ==== Sys2Proof/Certificates/Slice0/Obligations.lean ====
section
/-!
DEFINITION. The statements for the provers. Each docstring names the rule of spec/ it formalises. A next state is written out as
a record (`responded s code data` is `s` with a response and nothing else changed), so it is its own frame.
-/

open Sys2Proof Sys2Proof.Machine Sys2Proof.Safety

/-! ## Encoding -/

/-- Decoding an encoded well-formed command gives it back, every operand included (R60, R62, R64, R65). -/
def Obligations.DecodeEncodeRoundTrip : Prop :=
  ∀ i : Instr, i.wellFormed = true → decode (encode i) = i

/-- Encoding what a word decodes to gives back the bits the command reads, and 0 elsewhere (R63, R64, R69). -/
def Obligations.EncodeDecodeKeepsLiveBits : Prop :=
  ∀ c : Word, encode (decode c) = c &&& liveMask (decode c)

/-- R65: `C & 0xF000000000000000 = OP_X << 60` selects command X, for each of the sixteen opcodes. -/
def Obligations.OpcodeMapSelectsCommand : Prop :=
  ∀ c : Word,
    (c &&& 0xF000000000000000 = (0x0 : Word) <<< 60 ↔ decode c = .nop) ∧
    (c &&& 0xF000000000000000 = (0x1 : Word) <<< 60 ↔ ∃ i16 i32, decode c = .combine i16 i32) ∧
    (c &&& 0xF000000000000000 = (0x2 : Word) <<< 60 ↔ ∃ len data, decode c = .load len data) ∧
    (c &&& 0xF000000000000000 = (0x3 : Word) <<< 60 ↔ decode c = .reverse) ∧
    (c &&& 0xF000000000000000 = (0x4 : Word) <<< 60 ↔ decode c = .toSingle) ∧
    (c &&& 0xF000000000000000 = (0x5 : Word) <<< 60 ↔ decode c = .toDouble) ∧
    (c &&& 0xF000000000000000 = (0x6 : Word) <<< 60 ↔ decode c = .value) ∧
    (c &&& 0xF000000000000000 = (0x7 : Word) <<< 60 ↔ decode c = .getSign) ∧
    (c &&& 0xF000000000000000 = (0x8 : Word) <<< 60 ↔ decode c = .getExp) ∧
    (c &&& 0xF000000000000000 = (0x9 : Word) <<< 60 ↔ decode c = .getBuf) ∧
    (c &&& 0xF000000000000000 = (0xA : Word) <<< 60 ↔ decode c = .reservedA) ∧
    (c &&& 0xF000000000000000 = (0xB : Word) <<< 60 ↔ decode c = .reservedB) ∧
    (c &&& 0xF000000000000000 = (0xC : Word) <<< 60 ↔ decode c = .reservedC) ∧
    (c &&& 0xF000000000000000 = (0xD : Word) <<< 60 ↔ decode c = .reservedD) ∧
    (c &&& 0xF000000000000000 = (0xE : Word) <<< 60 ↔ decode c = .reservedE) ∧
    (c &&& 0xF000000000000000 = (0xF : Word) <<< 60 ↔ decode c = .reservedF)

/-- R64: how DATA is read by LOAD (six bytes), by COMBINE (two signed integers) and by the other opcodes (not at all). -/
def Obligations.DataFieldReading : Prop :=
  (∀ c : Word, c.extractLsb' 60 4 = 0x2#4 →
    ∃ data : Bytes6, decode c = .load (c.extractLsb' 56 4).toNat data ∧
      ∀ i, i < 6 → byteOf data i = c.extractLsb' (40 - 8 * i) 8) ∧
  (∀ c : Word, c.extractLsb' 60 4 = 0x1#4 →
    decode c = .combine (c.extractLsb' 32 16).toInt (c.extractLsb' 0 32).toInt) ∧
  (∀ c c' : Word, c.extractLsb' 60 4 = c'.extractLsb' 60 4 →
    c.extractLsb' 60 4 ≠ 0x1#4 → c.extractLsb' 60 4 ≠ 0x2#4 → decode c = decode c')

/-- R63: two words that differ in RSVD alone are one command: they raise the same error or none and leave the same state,
whichever step runs them. -/
def Obligations.ReservedFieldIsIgnored : Prop :=
  ∀ (c c' : Word), c.extractLsb' 56 8 = c'.extractLsb' 56 8 → c.extractLsb' 0 48 = c'.extractLsb' 0 48 →
    ∀ (s : State) (rst valid : Bool) (rest : List Pins),
      step { s with inputs := ⟨rst, valid, c⟩ :: rest } = step { s with inputs := ⟨rst, valid, c'⟩ :: rest }

/-- Every word decodes to a command whose operands fit their fields (R62, R64, R66). -/
def Obligations.DecodedCommandIsWellFormed : Prop :=
  ∀ c : Word, (decode c).wellFormed = true

/-- R71: the spec's own encoding examples decode to the commands they stand for. -/
def Obligations.SpecExampleWordsDecode : Prop :=
  decode 0x2600000000000081 = .load 6 0x000000000081 ∧
  decode 0x2500000000000081 = .load 5 0x000000000081 ∧
  decode 0x100003E80001E240 = .combine 1000 123456 ∧
  decode 0x1000800000000000 = .combine (-32768) 0 ∧
  decode 0x3000000000000000 = .reverse ∧
  decode 0x4000000000000000 = .toSingle ∧
  decode 0x9000000000000000 = .getBuf

/-! ## Bytes and mantissas -/

/-- R8: a 48-bit value is its six bytes, byte 0 most significant, and `B[0][7]` is bit 47. -/
def Obligations.BytesMakeTheWord : Prop :=
  (∀ w : Bytes6, ofBytes (byteOf w 0) (byteOf w 1) (byteOf w 2) (byteOf w 3) (byteOf w 4) (byteOf w 5) = w) ∧
  (∀ (w : Bytes6) (i j : Nat), i < 6 → j < 8 → (byteOf w i).getLsbD j = w.getLsbD (40 - 8 * i + j)) ∧
  (∀ w : Bytes6, (byteOf w 0).getLsbD 7 = w.getLsbD 47)

/-- R100 and R101: the single mantissa, the source mantissa and the double fraction are made of the bytes 0 to 4. -/
def Obligations.MantissasFromBytes : Prop :=
  ∀ w : Bytes6,
    mant23 w = (byteOf w 0).extractLsb' 0 7 ++ byteOf w 1 ++ byteOf w 2 ∧
    mant23 w = w.extractLsb' 24 23 ∧
    mant39 w = (byteOf w 0).extractLsb' 0 7 ++ byteOf w 1 ++ byteOf w 2 ++ byteOf w 3 ++ byteOf w 4 ∧
    mant39 w = w.extractLsb' 8 39 ∧
    frac52 w = (mant39 w).setWidth 52 <<< 13

/-! ## The clock edge -/

/-- A step runs the decoded command: at an edge with `rst = 0` and `cmd_valid = 1` the step is `exec` of the command on
`cmd_word`, the edge's inputs consumed; the decoded command is well-formed; and a command placed by `withFetchWord` is
run by the very next step (R28, R48). -/
def Obligations.StepRunsTheDecodedCommand : Prop :=
  (∀ (s : State) (c : Word) (rest : List Pins), s.inputs = ⟨false, true, c⟩ :: rest →
    (decode c).wellFormed = true ∧ step s = exec (decode c) { s with inputs := rest }) ∧
  (∀ (s : State) (w : Nat),
    step (s.withFetchWord 64 w) = exec (decode (BitVec.ofNat 64 w)) { s with inputs := s.inputs.tail })

/-- R28: `cmd_ready = ~rst`, the response ports show the response registers, and a command is accepted when `cmd_valid`
and `cmd_ready` are both 1. -/
def Obligations.PortsShowTheRegisters : Prop :=
  ∀ (p : Pins) (s : State),
    outputs p s = ⟨!p.rst, s.rspValid, s.rspStatus, s.rspData⟩ ∧
    (accepted p = true ↔ p.cmdValid = true ∧ (outputs p s).cmdReady = true)

/-- R29: at an edge with `rst = 0`, an accepted command sets RSP_VALID and leaves its own response, and without one RSP_VALID
is cleared and every other register keeps its value. -/
def Obligations.ResponseRegistersAtEachEdge : Prop :=
  ∀ (s : State) (p : Pins) (rest : List Pins), s.inputs = p :: rest → p.rst = false →
    (p.cmdValid = true → ∃ t, exec (decode p.cmdWord) { s with inputs := rest } = .next t ∧ step s = .next t ∧
      t.rspValid = true) ∧
    (p.cmdValid = false → step s = .next { s with inputs := rest, rspValid := false })

/-- R150: an edge with `rst = 1` clears VALID and the response registers and writes nothing else, whatever `cmd_valid` and
`cmd_word` hold; an edge with `rst = 0` finds the block ready. -/
def Obligations.ResetEdgeClearsValidAndResponse : Prop :=
  (∀ (s : State) (p : Pins) (rest : List Pins), s.inputs = p :: rest → p.rst = true →
    step s = .next { s with inputs := rest, valid := false, rspValid := false, rspStatus := 0#3, rspData := 0#64 }) ∧
  (∀ p : Pins, p.rst = false → cmdReady p = true)

/-- R151: while `rst = 1` no command is accepted; a command accepted at the edge before a reset presents its response after
its own edge, and the reset edge then clears RSP_VALID and VALID and leaves what it wrote to BUF, SIGN and EXP. -/
def Obligations.CommandJustBeforeReset : Prop :=
  (∀ p : Pins, p.rst = true → cmdReady p = false ∧ accepted p = false) ∧
  (∀ (s : State) (c : Word) (p : Pins) (rest : List Pins), s.inputs = ⟨false, true, c⟩ :: p :: rest → p.rst = true →
    ∃ t u, exec (decode c) { s with inputs := p :: rest } = .next t ∧ step s = .next t ∧ t.rspValid = true ∧
      step t = .next u ∧ u.rspValid = false ∧ u.valid = false ∧ u.buf = t.buf ∧ u.sign = t.sign ∧ u.exp = t.exp)

/-- The block never stops: every edge from every state gives a next state and uses up the edge's inputs ("The block never hangs
and never drops a command", R121; R130). -/
def Obligations.EveryStepAnswers : Prop :=
  ∀ s : State, ∃ t, step s = .next t ∧ t.inputs = s.inputs.tail

/-- The values R32 gives after reset: VALID, RSP_VALID, RSP_STATUS and RSP_DATA are 0. -/
def Obligations.ResetStateValues : Prop :=
  State.reset.valid = false ∧ State.reset.rspValid = false ∧ State.reset.rspStatus = 0#3 ∧ State.reset.rspData = 0#64

/-! ## Invariants and whole-machine rules -/

/-- Both invariants hold after reset (R24, R32, R68, R131). -/
def Obligations.InvariantHoldsAtReset : Prop := Inv State.reset

/-- R24: SIGN and EXP are never stale. Every step from a state where VALID = 1 implies SIGN = BUF[47] and EXP = BUF[7:0] leads
to such a state, and a step that changes BUF writes both from the new BUF. -/
def Obligations.CachedFieldsNeverStale : Prop :=
  ∀ s t : State, step s = .next t →
    (CacheCoherent s → t.valid = true → t.sign = t.buf.extractLsb' 47 1 ∧ t.exp = t.buf.extractLsb' 0 8) ∧
    (t.buf ≠ s.buf → t.sign = t.buf.extractLsb' 47 1 ∧ t.exp = t.buf.extractLsb' 0 8)

/-- The whole invariant is kept by every step: coherent caches, a status code of 5 or less, and data 0 with every status
other than OK (R24, R68, R131, R137). -/
def Obligations.InvariantKeptByEveryStep : Prop :=
  ∀ s t : State, Inv s → step s = .next t → Inv t

/-- Only a successful LOAD sets VALID and only reset clears it (R25). -/
def Obligations.ValidWrittenByLoadAndReset : Prop :=
  ∀ (s t : State) (p : Pins) (rest : List Pins), s.inputs = p :: rest → step s = .next t →
    (p.rst = true → t.valid = false) ∧
    (p.rst = false → p.cmdValid = true → (∃ data, decode p.cmdWord = .load 6 data) → t.valid = true) ∧
    (p.rst = false → ¬ (p.cmdValid = true ∧ ∃ data, decode p.cmdWord = .load 6 data) → t.valid = s.valid)

/-- While VALID = 0 the values of BUF, SIGN and EXP can never be learned: two states that differ in nothing else stay so at
every step and show the same outputs (R25, R32, R134, R138). -/
def Obligations.StaleBufferIsUnobservable : Prop :=
  ∀ s t s' t' : State, Indistinguishable s t → step s = .next s' → step t = .next t' →
    Indistinguishable s' t' ∧ ∀ p, outputs p s' = outputs p t'

/-- No state persists across reset (R33): after a reset edge, two blocks that receive the same inputs answer alike for ever,
whatever they held before. -/
def Obligations.NothingPersistsAcrossReset : Prop :=
  ∀ (s t : State) (p : Pins) (rest : List Pins) (k : Nat), s.inputs = p :: rest → t.inputs = p :: rest → p.rst = true →
    ∃ s' t', core.run (k + 1) s = .next s' ∧ core.run (k + 1) t = .next t' ∧ Indistinguishable s' t'

/-- FRAME of every command but a successful LOAD and REVERSE: no Decoder register is written; and no command touches the
inputs (R20, R21, R27, R47). -/
def Obligations.OnlyLoadAndReverseWriteTheDecoder : Prop :=
  ∀ (i : Instr) (s t : State), exec i s = .next t →
    t.inputs = s.inputs ∧ t.rspValid = true ∧
    ((∀ data, i ≠ .load 6 data) → i ≠ .reverse → DecoderUnchanged s t)

/-- R139: an error changes nothing but the response registers. -/
def Obligations.ErrorsChangeNothingElse : Prop :=
  ∀ (i : Instr) (s t : State), exec i s = .next t → t.rspStatus ≠ 0#3 → t = responded s t.rspStatus 0#64

/-- R131 and R138: the one status of every command in every state, the first that applies in R138's order; 6 and 7 are never
produced. -/
def Obligations.StatusOfEveryCommand : Prop :=
  ∀ (i : Instr) (s : State), i.wellFormed = true →
    ∃ t, exec i s = .next t ∧
      t.rspStatus = match i with
        | .nop => 0#3
        | .combine i16 _ => if i16 = -32768 then 1#3 else 0#3
        | .load len _ => if len ≠ 6 then 2#3 else 0#3
        | .toSingle => if s.valid = false then 3#3 else if s.exp = 1#8 then 4#3 else 0#3
        | .reverse => if s.valid = false then 3#3 else 0#3
        | .toDouble => if s.valid = false then 3#3 else 0#3
        | .value => if s.valid = false then 3#3 else 0#3
        | .getSign => if s.valid = false then 3#3 else 0#3
        | .getExp => if s.valid = false then 3#3 else 0#3
        | .getBuf => if s.valid = false then 3#3 else 0#3
        | .reservedA => 5#3
        | .reservedB => 5#3
        | .reservedC => 5#3
        | .reservedD => 5#3
        | .reservedE => 5#3
        | .reservedF => 5#3

/-! ## Control -/

/-- R120: NOP responds OK with data 0 in every state. -/
def Obligations.NopResponds : Prop :=
  ∀ s : State, exec .nop s = .next (responded s 0#3 0#64)

/-- R121: each reserved opcode completes with ILLEGAL in every state. -/
def Obligations.ReservedOpcodesRespondIllegal : Prop :=
  ∀ (s : State) (i : Instr),
    i = .reservedA ∨ i = .reservedB ∨ i = .reservedC ∨ i = .reservedD ∨ i = .reservedE ∨ i = .reservedF →
    exec i s = .next (responded s 5#3 0#64)

/-! ## Reassembler -/

/-- R80, on the command word: RANGE when I16 = 0x8000, else `rsp_data[63:48] = 0`, `[47:16] = I32`, `[15:0] = I16`; no other
state is written. -/
def Obligations.CombinePacksItsWord : Prop :=
  ∀ (c : Word) (s : State), c.extractLsb' 60 4 = 0x1#4 →
    (c.extractLsb' 32 16 = 0x8000#16 → exec (decode c) s = .next (responded s 1#3 0#64)) ∧
    (c.extractLsb' 32 16 ≠ 0x8000#16 →
      exec (decode c) s = .next (responded s 0#3 (0#16 ++ c.extractLsb' 0 32 ++ c.extractLsb' 32 16)))

/-- R83: the result is the four big-endian bytes of the 32-bit integer, then the two of the 16-bit integer. -/
def Obligations.CombineResultIsBigEndian : Prop :=
  ∀ (i16 i32 : Int) (s : State), -32767 ≤ i16 → i16 ≤ 32767 → -2147483648 ≤ i32 → i32 ≤ 2147483647 →
    ∃ t, exec (.combine i16 i32) s = .next t ∧ t.rspStatus = 0#3 ∧
      (∀ j, j < 4 → ((byteOf (t.rspData.extractLsb' 0 48) j).toNat : Int) = i32 % 2 ^ 32 / 2 ^ (24 - 8 * j) % 256) ∧
      (∀ j, j < 2 → ((byteOf (t.rspData.extractLsb' 0 48) (4 + j)).toNat : Int) = i16 % 2 ^ 16 / 2 ^ (8 - 8 * j) % 256)

/-- R84: COMBINE's response does not depend on the state, VALID = 0 included. -/
def Obligations.CombineIgnoresTheDecoder : Prop :=
  ∀ (i16 i32 : Int) (s s' : State),
    ∃ t t', exec (.combine i16 i32) s = .next t ∧ exec (.combine i16 i32) s' = .next t' ∧ response t = response t'

/-- R81 and R82, with the host's duty (R157): for integers of any size, the declared ranges are accepted with OK; -32768 is the
one value in I16's field that raises RANGE, and no value of I32 does; a host cannot issue what a field cannot hold. -/
def Obligations.RangeCheckForAllIntegers : Prop :=
  ∀ (i16 i32 : Int) (s : State),
    ((-32767 ≤ i16 ∧ i16 ≤ 32767 ∧ -2147483648 ≤ i32 ∧ i32 ≤ 2147483647) →
      ∃ i t, combineCommand i16 i32 = some i ∧ exec i s = .next t ∧ t.rspStatus = 0#3) ∧
    ((i16 = -32768 ∧ -2147483648 ≤ i32 ∧ i32 ≤ 2147483647) →
      ∃ i, combineCommand i16 i32 = some i ∧ exec i s = .next (responded s 1#3 0#64)) ∧
    ((i16 < -32768 ∨ 32767 < i16 ∨ i32 < -2147483648 ∨ 2147483647 < i32) → combineCommand i16 i32 = none)

/-! ## Decoder buffer -/

/-- R90: LOAD of six bytes replaces the buffer and its cached fields and sets VALID; any other length raises LENGTH and
leaves the state. -/
def Obligations.LoadReplacesTheBuffer : Prop :=
  ∀ (len : Nat) (data : Bytes6) (s : State),
    (len = 6 → exec (.load len data) s = .next { responded s 0#3 0#64 with
      buf := data, sign := data.extractLsb' 47 1, exp := data.extractLsb' 0 8, valid := true }) ∧
    (len ≠ 6 → exec (.load len data) s = .next (responded s 2#3 0#64))

/-- R91: REVERSE reverses the byte order in place, recomputes SIGN and EXP, and raises NO_BUFFER when VALID = 0. -/
def Obligations.ReverseSwapsTheBytes : Prop :=
  ∀ s : State,
    (s.valid = false → exec .reverse s = .next (responded s 3#3 0#64)) ∧
    (s.valid = true → ∃ b : Bytes6,
      exec .reverse s = .next { responded s 0#3 0#64 with
        buf := b, sign := (byteOf s.buf 5).extractLsb' 7 1, exp := byteOf s.buf 0 } ∧
      b = s.buf.extractLsb' 0 8 ++ s.buf.extractLsb' 8 8 ++ s.buf.extractLsb' 16 8 ++ s.buf.extractLsb' 24 8 ++
        s.buf.extractLsb' 32 8 ++ s.buf.extractLsb' 40 8 ∧
      ∀ i, i < 6 → byteOf b i = byteOf s.buf (5 - i))

/-- R95: two REVERSEs with VALID = 1 restore BUF, SIGN and EXP. -/
def Obligations.ReverseIsAnInvolution : Prop :=
  ∀ s : State, s.valid = true → CacheCoherent s →
    ∃ t u, exec .reverse s = .next t ∧ exec .reverse t = .next u ∧
      u.buf = s.buf ∧ u.sign = s.sign ∧ u.exp = s.exp

/-- R92, R93 and R94: with VALID = 1 the three reads respond OK with SIGN, EXP and BUF, which in a coherent state are BUF[47]
and BUF[7:0]; with VALID = 0 they raise NO_BUFFER. -/
def Obligations.DecoderReadsRespond : Prop :=
  ∀ s : State,
    (s.valid = true →
      exec .getSign s = .next (responded s 0#3 (s.sign.setWidth 64)) ∧
      exec .getExp s = .next (responded s 0#3 (s.exp.setWidth 64)) ∧
      exec .getBuf s = .next (responded s 0#3 (s.buf.setWidth 64)) ∧
      (CacheCoherent s → s.sign = s.buf.extractLsb' 47 1 ∧ s.exp = s.buf.extractLsb' 0 8)) ∧
    (s.valid = false →
      exec .getSign s = .next (responded s 3#3 0#64) ∧
      exec .getExp s = .next (responded s 3#3 0#64) ∧
      exec .getBuf s = .next (responded s 3#3 0#64))

/-- R134: every command that reads the buffer raises NO_BUFFER when VALID = 0. -/
def Obligations.NoBufferWithoutLoad : Prop :=
  ∀ (s : State) (i : Instr), s.valid = false →
    i = .reverse ∨ i = .toSingle ∨ i = .toDouble ∨ i = .value ∨ i = .getSign ∨ i = .getExp ∨ i = .getBuf →
    exec i s = .next (responded s 3#3 0#64)

/-- R47: a read or a conversion writes the response registers alone and answers the same when repeated; LOAD is idempotent;
two REVERSEs restore the Decoder. -/
def Obligations.ReadsHaveNoSideEffects : Prop :=
  (∀ (s : State) (i : Instr),
    i = .getSign ∨ i = .getExp ∨ i = .getBuf ∨ i = .toSingle ∨ i = .toDouble ∨ i = .value →
    ∃ t, exec i s = .next t ∧ t = responded s t.rspStatus t.rspData ∧ exec i t = .next t) ∧
  (∀ (s : State) (len : Nat) (data : Bytes6), ∃ t, exec (.load len data) s = .next t ∧ exec (.load len data) t = .next t) ∧
  (∀ s : State, s.valid = true → CacheCoherent s → ∃ t u, exec .reverse s = .next t ∧ exec .reverse t = .next u ∧
    DecoderUnchanged s u)

/-- What `from_bytes` of any length gives at the block (R62, R90, R157): the host's LEN fits its field, LOAD succeeds if and
only if there are six bytes, and then BUF holds them in order. -/
def Obligations.LoadAcceptsSixBytesOnly : Prop :=
  ∀ (bs : List Byte) (filler : Bytes6) (s : State),
    (fromBytesCommand bs filler).wellFormed = true ∧
    ∃ t, exec (fromBytesCommand bs filler) s = .next t ∧
      (bs.length = 6 → t.rspStatus = 0#3 ∧ t.valid = true ∧ bytesOf t.buf = bs) ∧
      (bs.length ≠ 6 → t = responded s 2#3 0#64)

/-! ## Conversions -/

/-- R102, R103 and R104: TOSINGLE gives +0.0 for exponent byte 0 whatever the sign and mantissa, UNDERFLOW for 1, and
otherwise `{SIGN, bits8(EXP - 2), BUF[46:24]}`, zero-extended; NO_BUFFER when VALID = 0. -/
def Obligations.ToSingleResponds : Prop :=
  ∀ s : State,
    (s.valid = false → exec .toSingle s = .next (responded s 3#3 0#64)) ∧
    (s.valid = true →
      (s.exp = 0#8 → exec .toSingle s = .next (responded s 0#3 0#64)) ∧
      (s.exp = 1#8 → exec .toSingle s = .next (responded s 4#3 0#64)) ∧
      (s.exp ≠ 0#8 → s.exp ≠ 1#8 →
        exec .toSingle s = .next (responded s 0#3 (0#32 ++ (s.sign ++ (s.exp - 2#8) ++ s.buf.extractLsb' 24 23)))))

/-- R105: with exponent byte 2 TOSINGLE gives the subnormal `(-1)^SIGN × M23 × 2^-149`, which is not the buffer's value, or
the signed zero where M23 = 0. -/
def Obligations.ToSingleExponentTwo : Prop :=
  ∀ s : State, s.valid = true → CacheCoherent s → s.exp = 2#8 →
    ∃ t, exec .toSingle s = .next t ∧ t.rspStatus = 0#3 ∧
      t.rspData = 0#32 ++ (s.sign ++ 0#8 ++ mant23 s.buf) ∧
      asF32 (t.rspData.extractLsb' 0 32) = some (signFactor s.buf * ((mant23 s.buf).toNat : ℚ) * 2 ^ (-149 : ℤ)) ∧
      asF32 (t.rspData.extractLsb' 0 32) ≠ some (real48Value s.buf)

/-- R110: for exponent bytes 3 to 255 TOSINGLE gives the buffer's value truncated toward zero to 23 mantissa bits, exact if
and only if `B[3] = B[4] = 0`. -/
def Obligations.ToSingleTruncates : Prop :=
  ∀ s : State, s.valid = true → CacheCoherent s → 3 ≤ s.exp.toNat →
    ∃ t, exec .toSingle s = .next t ∧ t.rspStatus = 0#3 ∧
      asF32 (t.rspData.extractLsb' 0 32) = some (real48Truncated s.buf) ∧
      |real48Truncated s.buf| ≤ |real48Value s.buf| ∧
      (real48Truncated s.buf = real48Value s.buf ↔ byteOf s.buf 3 = 0#8 ∧ byteOf s.buf 4 = 0#8)

/-- R106: TODOUBLE gives +0.0 for exponent byte 0 and otherwise `{SIGN, bits11(EXP + 894), BUF[46:8], 13'b0}`; no buffer
raises an error, NO_BUFFER when VALID = 0; and in a coherent state the result is exactly the buffer's value. -/
def Obligations.ToDoubleResponds : Prop :=
  ∀ s : State,
    (s.valid = false → exec .toDouble s = .next (responded s 3#3 0#64)) ∧
    (s.valid = true →
      (s.exp = 0#8 → exec .toDouble s = .next (responded s 0#3 0#64)) ∧
      (s.exp ≠ 0#8 →
        exec .toDouble s = .next (responded s 0#3
          (s.sign ++ (s.exp.setWidth 11 + 894#11) ++ s.buf.extractLsb' 8 39 ++ 0#13))) ∧
      (CacheCoherent s → ∃ t, exec .toDouble s = .next t ∧ asF64 t.rspData = some (real48Value s.buf)))

/-- VALUE's arithmetic gives these bits for every buffer, read from BUF alone (R108, R109): a zero of the buffer's sign for
`B[5] = 0`, else the exact double. -/
def Obligations.ValueRespondsExactly : Prop :=
  ∀ s : State, s.valid = true →
    (byteOf s.buf 5 = 0#8 → exec .value s = .next (responded s 0#3 (s.buf.extractLsb' 47 1 ++ 0#63))) ∧
    (byteOf s.buf 5 ≠ 0#8 →
      exec .value s = .next (responded s 0#3
        (s.buf.extractLsb' 47 1 ++ ((byteOf s.buf 5).setWidth 11 + 894#11) ++ s.buf.extractLsb' 8 39 ++ 0#13)))

/-- R109: for every coherent buffer VALUE and TODOUBLE give the same pattern, the buffer's exact value, when EXP ≠ 0; when
EXP = 0 they differ exactly when SIGN = 1, TODOUBLE giving +0.0 and VALUE -0.0. -/
def Obligations.ValueAgreesWithToDouble : Prop :=
  ∀ s : State, s.valid = true → CacheCoherent s →
    ∃ t u, exec .value s = .next t ∧ exec .toDouble s = .next u ∧ t.rspStatus = 0#3 ∧ u.rspStatus = 0#3 ∧
      (s.exp ≠ 0#8 → t.rspData = u.rspData ∧ asF64 t.rspData = some
        (signFactor s.buf * (1 + ((mant39 s.buf).toNat : ℚ) / 2 ^ 39) * 2 ^ ((s.exp.toNat : ℤ) - 129))) ∧
      (s.exp = 0#8 → u.rspData = 0#64 ∧
        (s.sign = 0#1 → t.rspData = 0#64) ∧ (s.sign = 1#1 → t.rspData = 0x8000000000000000#64))

/-- R111: no conversion produces a NaN or an infinity; the exponent fields are in the ranges R111 gives, and only TOSINGLE with
EXP = 2 produces subnormals. -/
def Obligations.NoNanAndNoInfinity : Prop :=
  ∀ s : State, s.valid = true → CacheCoherent s →
    ∃ t u v, exec .toSingle s = .next t ∧ exec .toDouble s = .next u ∧ exec .value s = .next v ∧
      (s.exp = 0#8 ∨ s.exp = 2#8 → (t.rspData.extractLsb' 23 8).toNat = 0) ∧
      (t.rspStatus = 0#3 → s.exp ≠ 0#8 → s.exp ≠ 2#8 →
        1 ≤ (t.rspData.extractLsb' 23 8).toNat ∧ (t.rspData.extractLsb' 23 8).toNat ≤ 253) ∧
      (s.exp = 0#8 → t.rspData = 0#64 ∧ u.rspData = 0#64) ∧
      (s.exp ≠ 0#8 → 895 ≤ (u.rspData.extractLsb' 52 11).toNat ∧ (u.rspData.extractLsb' 52 11).toNat ≤ 1149) ∧
      (v.rspData = u.rspData ∨ v.rspData = 0#64 ∨ v.rspData = 0x8000000000000000#64)

/-- R112: changing only `B[0][7]` changes only the sign bit of each result, where R112 says so; for EXP = 0 the zeros are
R113's, and for EXP = 1 TOSINGLE underflows for both signs. -/
def Obligations.SignLaw : Prop :=
  ∀ s f : State, s.valid = true → CacheCoherent s →
    f = { s with buf := s.buf ^^^ 0x800000000000#48, sign := s.sign ^^^ 1#1 } →
    ∃ t t' u u' v v', exec .toSingle s = .next t ∧ exec .toSingle f = .next t' ∧
      exec .toDouble s = .next u ∧ exec .toDouble f = .next u' ∧ exec .value s = .next v ∧ exec .value f = .next v' ∧
      (s.exp ≠ 0#8 → s.exp ≠ 1#8 → t'.rspData = t.rspData ^^^ 0x80000000#64) ∧
      (s.exp ≠ 0#8 → u'.rspData = u.rspData ^^^ 0x8000000000000000#64 ∧
        v'.rspData = v.rspData ^^^ 0x8000000000000000#64) ∧
      (s.exp = 0#8 → t.rspData = 0#64 ∧ t'.rspData = 0#64 ∧ u.rspData = 0#64 ∧ u'.rspData = 0#64 ∧
        v.rspData = s.sign ++ 0#63 ∧ v'.rspData = f.sign ++ 0#63) ∧
      (s.exp = 1#8 → t.rspStatus = 4#3 ∧ t'.rspStatus = 4#3)

/-- R113: for exponent byte 0 all three conversions complete with OK and return a zero, +0.0 but for VALUE's -0.0 when
SIGN = 1; each equals 0.0 as a number. -/
def Obligations.ZeroLaw : Prop :=
  ∀ s : State, s.valid = true → CacheCoherent s → s.exp = 0#8 →
    exec .toSingle s = .next (responded s 0#3 0#64) ∧
    exec .toDouble s = .next (responded s 0#3 0#64) ∧
    (∃ v, exec .value s = .next v ∧ v.rspStatus = 0#3 ∧
      (s.sign = 0#1 → v.rspData = 0#64) ∧ (s.sign = 1#1 → v.rspData = 0x8000000000000000#64) ∧
      asF64 v.rspData = some 0) ∧
    asF32 0#32 = some 0 ∧ asF64 0#64 = some 0

/-- Exponent byte 255 passes through as a finite exponent on this hardware: fields 253 and 1149, status OK, VALUE the number
`× 2^126`; in the variant P_EXP255 = RAISE both bit conversions would raise INFINITY (R107). -/
def Obligations.Exponent255PassesThrough : Prop :=
  (∀ s : State, s.valid = true → CacheCoherent s → s.exp = 255#8 →
    ∃ t u v, exec .toSingle s = .next t ∧ exec .toDouble s = .next u ∧ exec .value s = .next v ∧
      t.rspStatus = 0#3 ∧ u.rspStatus = 0#3 ∧ v.rspStatus = 0#3 ∧
      (t.rspData.extractLsb' 23 8).toNat = 253 ∧ (u.rspData.extractLsb' 52 11).toNat = 1149 ∧
      asF64 v.rspData = some (signFactor s.buf * (1 + ((mant39 s.buf).toNat : ℚ) / 2 ^ 39) * 2 ^ (126 : ℤ))) ∧
  (∀ (sg : BitVec 1) (m : BitVec 23) (f : BitVec 52),
    singleResult .raise sg 255#8 m = .error .infinity ∧ doubleResult .raise sg 255#8 f = .error .infinity)

/-! ## IEEE-754 arithmetic -/

/-- R11: `pow2(k)` is the binary64 value `2^k` for k from -1022 to 1023, and `fneg` flips the sign bit and nothing else. -/
def Obligations.PowersOfTwoAndNegation : Prop :=
  (∀ k : ℤ, -1022 ≤ k → k ≤ 1023 → asF64 (pow2 k) = some (2 ^ k)) ∧
  (∀ p : Word, fneg p = (~~~ (p.extractLsb' 63 1)) ++ p.extractLsb' 0 63)

/-- R11: the arithmetic rounds to nearest, ties to even. For finite operands, the result is finite exactly when the exact sum,
product or quotient lies below the rounding limit of binary64; then no binary64 number is nearer to it than the result,
and where another is as near, the result's last bit is 0. What R11 leaves to the standard (the layout, subnormals, the
limit and what lies above it) is the model's, from IEEE-754 (log entry 15, PRESUMED). -/
def Obligations.ArithmeticRoundsToNearestEven : Prop :=
  ∀ (a b r : Word) (x y z : ℚ), asF64 a = some x → asF64 b = some y →
    (r = fadd a b ∧ z = x + y) ∨ (r = fmul a b ∧ z = x * y) ∨ (r = fdiv a b ∧ y ≠ 0 ∧ z = x / y) →
    (|z| < (2 ^ 53 - 1 / 2) * 2 ^ 971 ↔ ∃ v, asF64 r = some v) ∧
    ∀ v : ℚ, asF64 r = some v → ∀ (p : Word) (w : ℚ), asF64 p = some w →
      |v - z| ≤ |w - z| ∧ (w ≠ v → |w - z| = |v - z| → r.getLsbD 0 = false)

/-! ## Host side -/

/-- R69: each form assembles to the word of the command it stands for: the operand-free ones to the words written here, the
others to a word that decodes to the command. A COMBINE or LOAD.L whose operand does not fit its field is refused;
`.word` gives the raw word. -/
def Obligations.AssemblerFormsDecode : Prop :=
  (assemble .nop = some [0x0000000000000000] ∧ decode 0x0000000000000000 = .nop ∧
    assemble .reverse = some [0x3000000000000000] ∧ decode 0x3000000000000000 = .reverse ∧
    assemble .toSingle = some [0x4000000000000000] ∧ decode 0x4000000000000000 = .toSingle ∧
    assemble .toDouble = some [0x5000000000000000] ∧ decode 0x5000000000000000 = .toDouble ∧
    assemble .value = some [0x6000000000000000] ∧ decode 0x6000000000000000 = .value ∧
    assemble .getSign = some [0x7000000000000000] ∧ decode 0x7000000000000000 = .getSign ∧
    assemble .getExp = some [0x8000000000000000] ∧ decode 0x8000000000000000 = .getExp ∧
    assemble .getBuf = some [0x9000000000000000] ∧ decode 0x9000000000000000 = .getBuf) ∧
  (∀ i16 i32 : Int,
    (-32768 ≤ i16 ∧ i16 ≤ 32767 ∧ -2147483648 ≤ i32 ∧ i32 ≤ 2147483647 →
      ∃ c, assemble (.combine i16 i32) = some [c] ∧ decode c = .combine i16 i32 ∧ c.extractLsb' 48 12 = 0#12) ∧
    (¬ (-32768 ≤ i16 ∧ i16 ≤ 32767 ∧ -2147483648 ≤ i32 ∧ i32 ≤ 2147483647) → assemble (.combine i16 i32) = none)) ∧
  (∀ (n : Nat) (b0 b1 b2 b3 b4 b5 : Byte),
    (n ≤ 15 → ∃ c, assemble (.loadLen n b0 b1 b2 b3 b4 b5) = some [c] ∧
      decode c = .load n (b0 ++ b1 ++ b2 ++ b3 ++ b4 ++ b5) ∧ c.extractLsb' 48 8 = 0#8) ∧
    (15 < n → assemble (.loadLen n b0 b1 b2 b3 b4 b5) = none) ∧
    assemble (.load b0 b1 b2 b3 b4 b5) = assemble (.loadLen 6 b0 b1 b2 b3 b4 b5)) ∧
  (∀ c : Word, assemble (.word c) = some [c])

/-- R69 and R70: the text of each form gives the words of the line it names, or is refused as that line is; upper and lower
case letters read alike, and a semicolon starts a comment. R69 says so of mnemonics; that the letters of numbers read
alike too, and how a negative hex integer is written, is the model's choice (log entry 9). -/
def Obligations.AssemblerTextCaseAndComments : Prop :=
  (∀ (l : AsmLine) (t : List Char), LineText l t → assembleText t = assemble l) ∧
  (∀ line : List Char, assembleText (line.map Char.toUpper) = assembleText line) ∧
  (∀ line comment : List Char, assembleText (line ++ ';' :: comment) = assembleText line)

/-- R70: LOADREV is LOAD then REVERSE, LOADPAIRREV is LOADPAIR then REVERSE; LOADPAIR is refused outside the declared ranges,
and inside them it is the LOAD of the big-endian bytes of `i32` and then of `i16`, which leaves the state that COMBINE and then LOAD of the returned data leave. -/
def Obligations.PseudoInstructionsExpand : Prop :=
  (∀ b0 b1 b2 b3 b4 b5 : Byte, ∃ c r, assemble (.load b0 b1 b2 b3 b4 b5) = some [c] ∧ assemble .reverse = some [r] ∧
    decode r = .reverse ∧ assemble (.loadRev b0 b1 b2 b3 b4 b5) = some [c, r]) ∧
  (∀ (i16 i32 : Int) (s : State),
    (-32767 ≤ i16 ∧ i16 ≤ 32767 ∧ -2147483648 ≤ i32 ∧ i32 ≤ 2147483647 →
      ∃ c r t u, assemble (.loadPair i16 i32) = some [c] ∧ assemble .reverse = some [r] ∧
        decode r = .reverse ∧ assemble (.loadPairRev i16 i32) = some [c, r] ∧
        c = 0x26#8 ++ 0#8 ++ BitVec.ofInt 32 i32 ++ BitVec.ofInt 16 i16 ∧
        exec (.combine i16 i32) s = .next t ∧ exec (.load 6 (t.rspData.extractLsb' 0 48)) t = .next u ∧
        exec (decode c) s = .next u) ∧
    (¬ (-32767 ≤ i16 ∧ i16 ≤ 32767 ∧ -2147483648 ≤ i32 ∧ i32 ≤ 2147483647) →
      assemble (.loadPair i16 i32) = none ∧ assemble (.loadPairRev i16 i32) = none))

/-- Instances share nothing (R53, R144): an edge of one instance gives it its own step and leaves every other as it was. -/
def Obligations.InstancesAreIndependent : Prop :=
  ∀ (blocks : List State) (n : Nat) (s : State), blocks[n]? = some s →
    ∃ t after, step s = .next t ∧ stepInstance n blocks = .next after ∧ after[n]? = some t ∧
      ∀ m, m ≠ n → after[m]? = blocks[m]?
end

