-- ==== Sys2Proof/Laws/AsmText.lean ====
section
/-!
SUPPORT. What the assembler's reader does with each part of a line (spec/30_encoding.md R69, R70): digits, numbers, operands,
and the letters of either case.
-/

namespace Sys2Proof.Laws

open Sys2Proof.Machine

/-! ## Digits and numbers -/

theorem digitValue_digitChar {base v : Nat} (hv : v < base) (hb : base ≤ 16) :
    digitValue base (Nat.digitChar v) = some v := by
  have key : ∀ v < 16, digitValue 16 (Nat.digitChar v) = some v := by decide
  have h16 : v < 16 := by omega
  have h := key v h16
  unfold digitValue at h ⊢
  simp only [] at h ⊢
  generalize (if 48 ≤ (Nat.digitChar v).toUpper.toNat ∧ (Nat.digitChar v).toUpper.toNat ≤ 57 then
      (Nat.digitChar v).toUpper.toNat - 48
    else if 65 ≤ (Nat.digitChar v).toUpper.toNat ∧ (Nat.digitChar v).toUpper.toNat ≤ 70 then
      (Nat.digitChar v).toUpper.toNat - 55 else 16) = w at *
  split at h
  · obtain rfl := Option.some.inj h
    rw [if_pos hv]
  · exact absurd h (by simp)

theorem digitsFrom_append (base acc : Nat) (t u : List Char) :
    digitsFrom base acc (t ++ u) = (digitsFrom base acc t).bind fun n => digitsFrom base n u := by
  induction t generalizing acc with
  | nil => rfl
  | cons c cs ih =>
    simp only [List.cons_append, digitsFrom]
    cases digitValue base c <;> simp [ih]

/-- Reading the digits of a number gives the number. -/
theorem digitsFrom_toDigits {base : Nat} (hb : 1 < base) (hb' : base ≤ 16) (n : Nat) :
    digitsFrom base 0 (Nat.toDigits base n) = some n := by
  induction n using Nat.strongRecOn with
  | _ n ih =>
    rcases Nat.lt_or_ge n base with h | h
    · simp [Nat.toDigits_of_lt_base h, digitsFrom, digitValue_digitChar h hb']
    · rw [Nat.toDigits_of_base_le hb h, digitsFrom_append, ih _ (Nat.div_lt_self (by omega) hb)]
      simp [digitsFrom, digitValue_digitChar (Nat.mod_lt n (by omega)) hb', Nat.div_add_mod]

theorem digitsFrom_zeros {base : Nat} (hb : 0 < base) (hb' : base ≤ 16) (k : Nat) (t : List Char) :
    digitsFrom base 0 (List.replicate k '0' ++ t) = digitsFrom base 0 t := by
  induction k with
  | zero => rfl
  | succ k ih =>
    have h : digitValue base '0' = some 0 := by
      rw [show '0' = Nat.digitChar 0 from rfl]
      exact digitValue_digitChar hb hb'
    simpa [List.replicate_succ, digitsFrom, h] using ih

theorem readDigits_eq {base : Nat} {t : List Char} (ht : t ≠ []) : readDigits base t = digitsFrom base 0 t := by
  cases t with
  | nil => exact absurd rfl ht
  | cons => rfl

/-- `0x` and the hex digits of `n` read as `n`. -/
theorem readHex_hexText {n : Nat} {t : List Char} (h : HexText n t) : readHex t = some n := by
  obtain ⟨k, rfl⟩ := h
  have hne : List.replicate k '0' ++ Nat.toDigits 16 n ≠ [] := by simp [Nat.toDigits_ne_nil]
  simp [readHex, readDigits_eq hne, digitsFrom_zeros, digitsFrom_toDigits]

/-- The decimal digits of `n` are no hex number. -/
theorem readHex_decimal (n : Nat) : readHex (Nat.toDigits 10 n) = none := by
  have digits : ∀ c ∈ Nat.toDigits 10 n, c.isDigit := fun c hc =>
    Nat.isDigit_of_mem_toDigits (by decide) (by decide) hc
  unfold readHex
  split
  · rename_i x cs h
    have hx := digits x (by simp [h])
    have : (x == 'x' || x == 'X') = false := by
      rcases Decidable.eq_or_ne x 'x' with rfl | h1
      · exact absurd hx (by decide)
      · rcases Decidable.eq_or_ne x 'X' with rfl | h2
        · exact absurd hx (by decide)
        · simp [h1, h2]
    simp [this]
  · rfl

theorem readNat_decimal (n : Nat) : readNat (Nat.toDigits 10 n) = some n := by
  simp [readNat, readHex_decimal, readDigits_eq Nat.toDigits_ne_nil, digitsFrom_toDigits]

theorem readNat_hexText {n : Nat} {t : List Char} (h : HexText n t) : readNat t = some n := by
  simp [readNat, readHex_hexText h]

/-! ## Characters that stand for themselves -/

/-- A character that neither separates operands nor ends a line. -/
def Plain (c : Char) : Prop := isBlank c = false ∧ c ≠ ',' ∧ c ≠ ';'

theorem plain_toDigits {base : Nat} (hb : 1 < base) (hb' : base ≤ 16) (n : Nat) :
    ∀ c ∈ Nat.toDigits base n, Plain c ∧ c ≠ '-' := by
  have key : ∀ v < 16, (isBlank (Nat.digitChar v) = false ∧ Nat.digitChar v ≠ ',' ∧ Nat.digitChar v ≠ ';') ∧
      Nat.digitChar v ≠ '-' := by decide
  induction n using Nat.strongRecOn with
  | _ n ih =>
    intro c hc
    rcases Nat.lt_or_ge n base with h | h
    · rw [Nat.toDigits_of_lt_base h, List.mem_singleton] at hc
      exact hc ▸ key n (by omega)
    · rw [Nat.toDigits_of_base_le hb h, List.mem_append, List.mem_singleton] at hc
      rcases hc with hc | rfl
      · exact ih _ (Nat.div_lt_self (by omega) hb) c hc
      · exact key _ (by have := Nat.mod_lt n (show base > 0 by omega); omega)

/-- A piece of text that is one operand: some characters, all plain. -/
def PlainText (t : List Char) : Prop := t ≠ [] ∧ ∀ c ∈ t, Plain c

theorem plainText_decimal (n : Nat) : PlainText (Nat.toDigits 10 n) :=
  ⟨Nat.toDigits_ne_nil, fun c hc => (plain_toDigits (by decide) (by decide) n c hc).1⟩

theorem plainText_hexText {n : Nat} {t : List Char} (h : HexText n t) : PlainText t := by
  obtain ⟨k, rfl⟩ := h
  refine ⟨by simp, fun c hc => ?_⟩
  simp only [List.mem_cons, List.mem_append, List.mem_replicate] at hc
  rcases hc with rfl | rfl | ⟨-, rfl⟩ | hc
  · exact ⟨by decide, by decide, by decide⟩
  · exact ⟨by decide, by decide, by decide⟩
  · exact ⟨by decide, by decide, by decide⟩
  · exact (plain_toDigits (by decide) (by decide) n c hc).1

theorem plainText_intText {x : Int} {t : List Char} (h : IntText x t) : PlainText t := by
  obtain ⟨d, hd, rfl⟩ := h
  have pd : PlainText d := hd.elim (fun h => h ▸ plainText_decimal _) plainText_hexText
  split
  · refine ⟨by simp, fun c hc => ?_⟩
    rcases List.mem_cons.1 hc with rfl | hc
    · exact ⟨by decide, by decide, by decide⟩
    · exact pd.2 c hc
  · exact pd

/-- A decimal or hex text of an integer reads as the integer. -/
theorem readInt_intText {x : Int} {t : List Char} (h : IntText x t) : readInt t = some x := by
  obtain ⟨d, hd, rfl⟩ := h
  have hn : readNat d = some x.natAbs := hd.elim (fun h => h ▸ readNat_decimal _) readNat_hexText
  split
  · simp [readInt, hn, abs_of_neg ‹_›]
  · have hminus : ∀ cs, d ≠ '-' :: cs := by
      rintro cs rfl
      rcases hd with h | ⟨k, h⟩
      · exact (plain_toDigits (by decide) (by decide) _ '-' (h ▸ List.mem_cons_self)).2 rfl
      · simp at h
    unfold readInt
    split
    · exact absurd rfl (hminus _)
    · simp [hn, abs_of_nonneg (not_lt.1 ‹_›)]

theorem readByte_hexText {b : Byte} {t : List Char} (h : HexText b.toNat t) : readByte t = some b := by
  simp [readByte, readNat_hexText h, b.isLt]

theorem readWord_hexText {c : Word} {t : List Char} (h : HexText c.toNat t) : readWord t = some c := by
  simp [readWord, readHex_hexText h, c.isLt]

/-! ## The parts of a line -/

/-- Text that begins and ends with no blank keeps all its characters. -/
theorem trimBlanks_blanks_around {t : List Char} (k : Nat) (hne : t ≠ []) (hh : isBlank (t.head hne) = false)
    (hl : isBlank (t.getLast hne) = false) : trimBlanks (List.replicate k ' ' ++ t) = t := by
  have front : (List.replicate k ' ' ++ t).dropWhile isBlank = t := by
    induction k with
    | zero =>
      obtain ⟨c, cs, rfl⟩ := List.exists_cons_of_ne_nil hne
      simp_all
    | succ k ih => rw [List.replicate_succ, List.cons_append, List.dropWhile_cons_of_pos (by decide), ih]
  have back : t.reverse.dropWhile isBlank = t.reverse := by
    obtain ⟨u, c, rfl⟩ : ∃ u c, t = u ++ [c] := ⟨_, _, (List.dropLast_append_getLast hne).symm⟩
    simp_all
  rw [trimBlanks, front, back, List.reverse_reverse]

theorem trimBlanks_plain {t : List Char} (k : Nat) (h : PlainText t) :
    trimBlanks (List.replicate k ' ' ++ t) = t :=
  trimBlanks_blanks_around k h.1 (h.2 _ (List.head_mem _)).1 (h.2 _ (List.getLast_mem _)).1

/-- A comma ends a piece. -/
theorem splitCommas_comma (t u : List Char) (h : ∀ c ∈ t, c ≠ ',') :
    splitCommas (t ++ ',' :: u) = t :: splitCommas u := by
  induction t with
  | nil => simp [splitCommas]
  | cons c cs ih =>
    have hc := h c List.mem_cons_self
    simp [splitCommas, hc, ih fun d hd => h d (List.mem_cons_of_mem _ hd)]

theorem splitCommas_last (t : List Char) (h : ∀ c ∈ t, c ≠ ',') : splitCommas t = [t] := by
  induction t with
  | nil => rfl
  | cons c cs ih =>
    have hc := h c List.mem_cons_self
    simp [splitCommas, hc, ih fun d hd => h d (List.mem_cons_of_mem _ hd)]

/-- The pieces of operands with commas between them are the operands, once their blanks are taken away. -/
theorem splitCommas_commaSeparated (gap k : Nat) {t : List Char} {ts : List (List Char)}
    (h : ∀ u ∈ t :: ts, PlainText u) :
    (splitCommas (List.replicate k ' ' ++ commaSeparated gap (t :: ts))).map trimBlanks = t :: ts := by
  have noComma : ∀ {k : Nat} {u : List Char}, PlainText u → ∀ c ∈ List.replicate k ' ' ++ u, c ≠ ',' := by
    intro k u hu c hc
    rcases List.mem_append.1 hc with hc | hc
    · rw [(List.mem_replicate.1 hc).2]; decide
    · exact (hu.2 c hc).2.1
  induction ts generalizing k t with
  | nil =>
    have ht := h t List.mem_cons_self
    rw [commaSeparated, splitCommas_last _ (noComma ht)]
    simp [trimBlanks_plain k ht]
  | cons u us ih =>
    have ht := h t List.mem_cons_self
    rw [commaSeparated, ← List.append_assoc, splitCommas_comma _ _ (noComma ht), List.map_cons, trimBlanks_plain k ht,
      ih gap fun v hv => h v (List.mem_cons_of_mem _ hv)]

/-- Operands written with commas have only plain characters, commas and spaces, and begin and end with a plain one. -/
theorem commaSeparated_ends (gap : Nat) {t : List Char} {ts : List (List Char)} (h : ∀ u ∈ t :: ts, PlainText u) :
    ∃ hne : commaSeparated gap (t :: ts) ≠ [], Plain ((commaSeparated gap (t :: ts)).head hne) ∧
      Plain ((commaSeparated gap (t :: ts)).getLast hne) ∧ ∀ c ∈ commaSeparated gap (t :: ts), c ≠ ';' := by
  induction ts generalizing t with
  | nil =>
    have ht := h t List.mem_cons_self
    exact ⟨ht.1, ht.2 _ (List.head_mem _), ht.2 _ (List.getLast_mem _), fun c hc => (ht.2 c hc).2.2⟩
  | cons u us ih =>
    have ht := h t List.mem_cons_self
    obtain ⟨hne, -, hl, hs⟩ := ih fun v hv => h v (List.mem_cons_of_mem _ hv)
    refine ⟨by simp [commaSeparated, ht.1], ?_, ?_, ?_⟩
    · simp only [commaSeparated, List.head_append_of_ne_nil ht.1]
      exact ht.2 _ (List.head_mem _)
    · simp only [commaSeparated]
      rw [List.getLast_append_of_ne_nil _ (by simp), List.getLast_cons (by simp [hne]), List.getLast_append_of_ne_nil _ hne]
      exact hl
    · intro c hc
      simp only [commaSeparated, List.mem_append, List.mem_cons, List.mem_replicate] at hc
      rcases hc with hc | rfl | ⟨-, rfl⟩ | hc
      · exact (ht.2 c hc).2.2
      · decide
      · decide
      · exact hs c hc

theorem dropComment_none {t : List Char} (h : ∀ c ∈ t, c ≠ ';') : dropComment t = t := by
  induction t with
  | nil => rfl
  | cons c cs ih =>
    simp [dropComment, h c List.mem_cons_self, ih fun d hd => h d (List.mem_cons_of_mem _ hd)]

/-- A line of a mnemonic and operands is read by `readForm` of the two. -/
theorem assembleText_operands (m : List Char) (gap : Nat) {t : List Char} {ts : List (List Char)} (hm : PlainText m)
    (h : ∀ u ∈ t :: ts, PlainText u) :
    assembleText (m ++ ' ' :: commaSeparated gap (t :: ts)) =
      (readForm (m.map Char.toUpper) (t :: ts)).bind assemble := by
  obtain ⟨hne, hh, hl, hs⟩ := commaSeparated_ends gap h
  generalize hc : commaSeparated gap (t :: ts) = cs at *
  have hcomment : dropComment (m ++ ' ' :: cs) = m ++ ' ' :: cs := by
    refine dropComment_none fun c hc => ?_
    rcases List.mem_append.1 hc with hc | hc
    · exact (hm.2 c hc).2.2
    · rcases List.mem_cons.1 hc with rfl | hc
      · decide
      · exact hs c hc
  have htrim : trimBlanks (m ++ ' ' :: cs) = m ++ ' ' :: cs := by
    have hne' : m ++ ' ' :: cs ≠ [] := by simp
    refine trimBlanks_blanks_around (t := m ++ ' ' :: cs) 0 hne' ?_ ?_
    · rw [List.head_append_of_ne_nil hm.1]
      exact (hm.2 _ (List.head_mem _)).1
    · rw [List.getLast_append_of_ne_nil _ (List.cons_ne_nil _ _), List.getLast_cons hne]
      exact hl.1
  have plain : ∀ c ∈ m, (!isBlank c) = true := fun c hc => by simp [(hm.2 c hc).1]
  have htake : (m ++ ' ' :: cs).takeWhile (fun c => !isBlank c) = m := by
    rw [List.takeWhile_append_of_pos plain, List.takeWhile_cons_of_neg (by decide), List.append_nil]
  have hdrop : (m ++ ' ' :: cs).dropWhile (fun c => !isBlank c) = ' ' :: cs := by
    rw [List.dropWhile_append_of_pos plain, List.dropWhile_cons_of_neg (by decide)]
  have hops : operands (' ' :: cs) = t :: ts := by
    have ht : trimBlanks (' ' :: cs) = cs := trimBlanks_blanks_around 1 hne hh.1 hl.1
    obtain ⟨c, r, hcr⟩ := List.exists_cons_of_ne_nil hne
    have := splitCommas_commaSeparated gap 0 h
    rw [List.replicate_zero, List.nil_append, hc, hcr] at this
    rw [operands, ht, hcr]
    exact this
  unfold assembleText
  rw [hcomment, htrim]
  split
  · rename_i heq
    exact absurd heq (by simp)
  · simp only [htake, hdrop, hops]
    cases readForm (m.map Char.toUpper) (t :: ts) <;> rfl

/-- Six bytes in hex are read as the six bytes. -/
theorem readSix_hexText (mk : Byte → Byte → Byte → Byte → Byte → Byte → AsmLine) {b0 b1 b2 b3 b4 b5 : Byte}
    {ts : List (List Char)} (h : List.Forall₂ (fun (b : Byte) u => HexText b.toNat u) [b0, b1, b2, b3, b4, b5] ts) :
    readSix mk ts = some (mk b0 b1 b2 b3 b4 b5) := by
  simp only [List.forall₂_cons_left_iff, List.forall₂_nil_left_iff] at h
  obtain ⟨t0, _, h0, ⟨t1, _, h1, ⟨t2, _, h2, ⟨t3, _, h3, ⟨t4, _, h4, ⟨t5, _, h5, rfl, rfl⟩, rfl⟩, rfl⟩, rfl⟩, rfl⟩, rfl⟩ :=
    h
  simp [readSix, readByte_hexText h0, readByte_hexText h1, readByte_hexText h2, readByte_hexText h3, readByte_hexText h4,
    readByte_hexText h5]

/-- Two integers are read as the two integers. -/
theorem readPair_intText (mk : Int → Int → AsmLine) {x y : Int} {a b : List Char} (ha : IntText x a) (hb : IntText y b) :
    readPair mk [a, b] = some (mk x y) := by
  simp [readPair, readInt_intText ha, readInt_intText hb]

/-! ## Letters of either case -/

/-- Turning a character into a capital leaves it, or moves it from a..z to A..Z. -/
theorem toUpper_cases (c : Char) :
    c.toUpper = c ∨ 97 ≤ c.toNat ∧ c.toNat ≤ 122 ∧ c.toUpper.toNat + 32 = c.toNat := by
  unfold Char.toUpper
  split
  · rename_i h
    have h1 : 97 ≤ c.toNat := h.1
    have h2 : c.toNat ≤ 122 := h.2
    refine .inr ⟨h1, h2, ?_⟩
    show (c.val + ('A'.val - 'a'.val)).toNat + 32 = c.toNat
    rw [UInt32.toNat_add]
    have : ('A'.val - 'a'.val).toNat = 2 ^ 32 - 32 := by decide
    have hc : c.val.toNat = c.toNat := rfl
    omega
  · exact .inl rfl

/-- A character that is no letter is the capital of itself alone. -/
theorem toUpper_eq_iff {c k : Char} (hk : k.toNat < 65) : c.toUpper = k ↔ c = k := by
  rcases toUpper_cases c with h | ⟨h1, h2, h3⟩
  · rw [h]
  · constructor
    · rintro rfl; omega
    · rintro rfl; omega

theorem toUpper_toUpper (c : Char) : c.toUpper.toUpper = c.toUpper := by
  rcases toUpper_cases c.toUpper with h | ⟨h1, h2, h3⟩
  · exact h
  · rcases toUpper_cases c with h | ⟨g1, g2, g3⟩
    · rw [h, h]
    · omega

/-- A text with its letters turned into capitals. -/
abbrev capitals (t : List Char) : List Char := t.map Char.toUpper

theorem isBlank_toUpper (c : Char) : isBlank c.toUpper = isBlank c := by
  rw [Bool.eq_iff_iff]
  simp [isBlank, toUpper_eq_iff]

theorem dropComment_capitals (t : List Char) : dropComment (capitals t) = capitals (dropComment t) := by
  induction t with
  | nil => rfl
  | cons c cs ih =>
    by_cases h : c = ';'
    · subst h; rfl
    · have h' : c.toUpper ≠ ';' := by rwa [Ne, toUpper_eq_iff (by decide)]
      simp [dropComment, h, h', ih]

theorem dropWhile_capitals {p : Char → Bool} (hp : ∀ c, p c.toUpper = p c) (t : List Char) :
    (capitals t).dropWhile p = capitals (t.dropWhile p) := by
  rw [capitals, List.dropWhile_map]
  exact congrArg _ (congrArg (t.dropWhile ·) (funext hp))

theorem takeWhile_capitals {p : Char → Bool} (hp : ∀ c, p c.toUpper = p c) (t : List Char) :
    (capitals t).takeWhile p = capitals (t.takeWhile p) := by
  rw [capitals, List.takeWhile_map]
  exact congrArg _ (congrArg (t.takeWhile ·) (funext hp))

theorem trimBlanks_capitals (t : List Char) : trimBlanks (capitals t) = capitals (trimBlanks t) := by
  rw [trimBlanks, dropWhile_capitals isBlank_toUpper, capitals, ← List.map_reverse, ← capitals,
    dropWhile_capitals isBlank_toUpper, capitals, ← List.map_reverse]
  rfl

theorem splitCommas_capitals (t : List Char) : splitCommas (capitals t) = (splitCommas t).map capitals := by
  induction t with
  | nil => rfl
  | cons c cs ih =>
    rw [capitals] at ih
    by_cases h : c = ','
    · subst h
      exact congrArg ([] :: ·) ih
    · have h' : c.toUpper ≠ ',' := by rwa [Ne, toUpper_eq_iff (by decide)]
      simp only [List.map_cons, splitCommas, beq_iff_eq, h, h', if_false, ih]
      cases splitCommas cs <;> rfl

theorem operands_capitals (t : List Char) : operands (capitals t) = (operands t).map capitals := by
  rw [operands, operands, trimBlanks_capitals]
  cases trimBlanks t with
  | nil => rfl
  | cons c cs =>
    show (splitCommas (capitals (c :: cs))).map trimBlanks = _
    rw [splitCommas_capitals]
    simp [trimBlanks_capitals]

theorem readDigits_capitals (base : Nat) (t : List Char) : readDigits base (capitals t) = readDigits base t := by
  have digits : ∀ acc, digitsFrom base acc (capitals t) = digitsFrom base acc t := by
    induction t with
    | nil => exact fun _ => rfl
    | cons c cs ih =>
      intro acc
      have hc : digitValue base c.toUpper = digitValue base c := by simp only [digitValue, toUpper_toUpper]
      simp only [capitals, List.map_cons, digitsFrom, hc]
      cases digitValue base c with
      | none => rfl
      | some v => exact ih _
  cases t with
  | nil => rfl
  | cons c cs => exact digits 0

theorem readHex_capitals (t : List Char) : readHex (capitals t) = readHex t := by
  have letterX : ∀ x : Char, (x.toUpper == 'x' || x.toUpper == 'X') = (x == 'x' || x == 'X') := by
    intro x
    rcases toUpper_cases x with e | ⟨h1, h2, h3⟩
    · rw [e]
    · rcases Decidable.eq_or_ne x 'x' with rfl | hx
      · rfl
      · have hX : x ≠ 'X' := by rintro rfl; exact absurd h1 (by decide)
        have hu : x.toUpper ≠ 'x' := by
          intro h
          rw [h] at h3
          have : ('x' : Char).toNat = 120 := rfl
          omega
        have hU : x.toUpper ≠ 'X' := by
          intro h
          rw [h] at h3
          exact hx (Char.ext (UInt32.toNat_inj.1 h3.symm))
        rw [beq_false_of_ne hx, beq_false_of_ne hX, beq_false_of_ne hu, beq_false_of_ne hU]
  match t with
  | [] => rfl
  | [_] => simp [capitals, readHex]
  | c :: x :: cs =>
    by_cases h : c = '0'
    · subst h
      show (if x.toUpper == 'x' || x.toUpper == 'X' then readDigits 16 (capitals cs) else none) =
        (if x == 'x' || x == 'X' then readDigits 16 cs else none)
      rw [letterX, readDigits_capitals]
    · have h' : c.toUpper ≠ '0' := by rwa [Ne, toUpper_eq_iff (by decide)]
      simp [readHex, h, h']

theorem readNat_capitals (t : List Char) : readNat (capitals t) = readNat t := by
  rw [readNat, readNat, readHex_capitals, readDigits_capitals]

theorem readInt_capitals (t : List Char) : readInt (capitals t) = readInt t := by
  match t with
  | [] => rfl
  | c :: cs =>
    by_cases h : c = '-'
    · subst h
      rw [show capitals ('-' :: cs) = '-' :: capitals cs from rfl, readInt, readInt, readNat_capitals]
    · have h' : c.toUpper ≠ '-' := by rwa [Ne, toUpper_eq_iff (by decide)]
      have hn := readNat_capitals (c :: cs)
      simp only [capitals, List.map_cons] at hn
      simp [readInt, h, h', hn]

theorem readByte_capitals (t : List Char) : readByte (capitals t) = readByte t := by
  rw [readByte, readByte, readNat_capitals]

theorem readWord_capitals (t : List Char) : readWord (capitals t) = readWord t := by
  rw [readWord, readWord, readHex_capitals]

end Sys2Proof.Laws
end

