-- ==== Sys2Proof/Laws/Decode.lean ====
section
/-!
SUPPORT. The fields of a command word, and what the decoder reads from an assembled one.
-/

namespace Sys2Proof.Laws

variable (op len : BitVec 4) (rsvd : BitVec 8) (data : Bytes6)

/-- OP of an assembled word (R61). -/
@[simp] theorem opField_commandWord : opField (commandWord op len rsvd data) = op := by
  apply BitVec.eq_of_getLsbD_eq
  intro i hi
  simp only [opField, commandWord, BitVec.getLsbD_extractLsb', BitVec.getLsbD_append]
  split <;> simp_all <;> grind

/-- LEN of an assembled word (R62). -/
@[simp] theorem lenField_commandWord : lenField (commandWord op len rsvd data) = len := by
  apply BitVec.eq_of_getLsbD_eq
  intro i hi
  simp only [lenField, commandWord, BitVec.getLsbD_extractLsb', BitVec.getLsbD_append]
  split <;> simp_all <;> grind

/-- DATA of an assembled word (R64). -/
@[simp] theorem dataField_commandWord : dataField (commandWord op len rsvd data) = data := by
  apply BitVec.eq_of_getLsbD_eq
  intro i hi
  simp only [dataField, commandWord, BitVec.getLsbD_extractLsb', BitVec.getLsbD_append]
  split <;> simp_all

/-- I16 of an assembled word (R64). -/
@[simp] theorem i16Field_commandWord (a : BitVec 16) (b : BitVec 32) : i16Field (commandWord op len rsvd (a ++ b)) = a := by
  have h : i16Field (commandWord op len rsvd (a ++ b)) = (dataField (commandWord op len rsvd (a ++ b))).extractLsb' 32 16 := by
    apply BitVec.eq_of_getLsbD_eq
    intro i hi
    simp only [i16Field, dataField, BitVec.getLsbD_extractLsb']
    simp [hi]
    omega
  rw [h, dataField_commandWord]
  exact BitVec.extractLsb'_append_eq_left

/-- I32 of an assembled word (R64). -/
@[simp] theorem i32Field_commandWord (a : BitVec 16) (b : BitVec 32) : i32Field (commandWord op len rsvd (a ++ b)) = b := by
  have h : i32Field (commandWord op len rsvd (a ++ b)) = (dataField (commandWord op len rsvd (a ++ b))).extractLsb' 0 32 := by
    apply BitVec.eq_of_getLsbD_eq
    intro i hi
    simp only [i32Field, dataField, BitVec.getLsbD_extractLsb']
    simp [hi]
    omega
  rw [h, dataField_commandWord]
  exact BitVec.extractLsb'_append_eq_right

/-- Everything the decoder can answer, by opcode (R65). -/
theorem decode_cases (c : Word) :
    (opField c = 0#4 ∧ decode c = .nop) ∨
    (opField c = 1#4 ∧ decode c = .combine (i16Field c).toInt (i32Field c).toInt) ∨
    (opField c = 2#4 ∧ decode c = .load (lenField c).toNat (dataField c)) ∨
    (opField c = 3#4 ∧ decode c = .reverse) ∨
    (opField c = 4#4 ∧ decode c = .toSingle) ∨
    (opField c = 5#4 ∧ decode c = .toDouble) ∨
    (opField c = 6#4 ∧ decode c = .value) ∨
    (opField c = 7#4 ∧ decode c = .getSign) ∨
    (opField c = 8#4 ∧ decode c = .getExp) ∨
    (opField c = 9#4 ∧ decode c = .getBuf) ∨
    (opField c = 10#4 ∧ decode c = .reservedA) ∨
    (opField c = 11#4 ∧ decode c = .reservedB) ∨
    (opField c = 12#4 ∧ decode c = .reservedC) ∨
    (opField c = 13#4 ∧ decode c = .reservedD) ∨
    (opField c = 14#4 ∧ decode c = .reservedE) ∨
    (opField c = 15#4 ∧ decode c = .reservedF) := by
  have lit : ∀ k : Nat, (opField c).toNat = k → opField c = BitVec.ofNat 4 k := by
    rintro k rfl
    simp
  have lt : (opField c).toNat < 16 := (opField c).isLt
  unfold decode
  generalize h : (opField c).toNat = n at *
  interval_cases n <;> simp [lit _ rfl]

end Sys2Proof.Laws
end

