-- ==== Sys2Proof/Laws/Float64.lean ====
section
/-!
SUPPORT. The binary64 operations on values they can hold exactly: an operation whose exact result is zero or a normal
binary64 number returns the encoding of that result (spec/00_scope.md R11). `Encodes p s x` says that `p` is the
encoding of `(-1)^s × x`.
-/

namespace Sys2Proof.Laws

open Sys2Proof.Machine

/-- `log2Ratio` is the floor of the binary logarithm. -/
theorem log2Ratio_spec {n d : Nat} (hn : 0 < n) (hd : 0 < d) :
    (2 : ℚ) ^ log2Ratio n d ≤ (n : ℚ) / d ∧ (n : ℚ) / d < 2 ^ (log2Ratio n d + 1) := by
  have hd' : (0 : ℚ) < d := by exact_mod_cast hd
  have nlo : (2 : ℚ) ^ (Nat.log2 n : ℤ) ≤ n := by
    rw [zpow_natCast]; exact_mod_cast Nat.log2_self_le hn.ne'
  have nhi : (n : ℚ) < 2 ^ ((Nat.log2 n : ℤ) + 1) := by
    have h : n < 2 ^ (Nat.log2 n + 1) := Nat.lt_log2_self
    have : (n : ℚ) < 2 ^ (Nat.log2 n + 1) := by exact_mod_cast h
    rwa [← zpow_natCast, Nat.cast_add, Nat.cast_one] at this
  have dlo : (2 : ℚ) ^ (Nat.log2 d : ℤ) ≤ d := by
    rw [zpow_natCast]; exact_mod_cast Nat.log2_self_le hd.ne'
  have dhi : (d : ℚ) < 2 ^ ((Nat.log2 d : ℤ) + 1) := by
    have h : d < 2 ^ (Nat.log2 d + 1) := Nat.lt_log2_self
    have : (d : ℚ) < 2 ^ (Nat.log2 d + 1) := by exact_mod_cast h
    rwa [← zpow_natCast, Nat.cast_add, Nat.cast_one] at this
  have upper : (n : ℚ) / d < 2 ^ ((Nat.log2 n : ℤ) - Nat.log2 d + 1) := by
    rw [div_lt_iff₀ hd']
    calc (n : ℚ) < 2 ^ ((Nat.log2 n : ℤ) + 1) := nhi
      _ = 2 ^ ((Nat.log2 n : ℤ) - Nat.log2 d + 1) * 2 ^ (Nat.log2 d : ℤ) := by
        rw [← zpow_add₀ two_ne_zero]; congr 1; ring
      _ ≤ _ := by gcongr
  have lower : (2 : ℚ) ^ ((Nat.log2 n : ℤ) - Nat.log2 d - 1) ≤ (n : ℚ) / d := by
    rw [le_div_iff₀ hd']
    calc (2 : ℚ) ^ ((Nat.log2 n : ℤ) - Nat.log2 d - 1) * d
        ≤ 2 ^ ((Nat.log2 n : ℤ) - Nat.log2 d - 1) * 2 ^ ((Nat.log2 d : ℤ) + 1) := by gcongr
      _ = 2 ^ (Nat.log2 n : ℤ) := by rw [← zpow_add₀ two_ne_zero]; congr 1; ring
      _ ≤ n := nlo
  have split : ∀ k : ℤ, (2 : ℚ) ^ k = 2 ^ k.toNat / 2 ^ (-k).toNat := by
    intro k
    rw [← zpow_natCast, ← zpow_natCast, ← zpow_sub₀ two_ne_zero]
    congr 1; omega
  have test : d * 2 ^ ((Nat.log2 n : ℤ) - Nat.log2 d).toNat ≤ n * 2 ^ (-((Nat.log2 n : ℤ) - Nat.log2 d)).toNat ↔
      (2 : ℚ) ^ ((Nat.log2 n : ℤ) - Nat.log2 d) ≤ (n : ℚ) / d := by
    rw [split, div_le_div_iff₀ (by positivity) hd', mul_comm d]
    exact_mod_cast Iff.rfl
  unfold log2Ratio
  simp only []
  split
  · exact ⟨test.1 ‹_›, upper⟩
  · refine ⟨lower, ?_⟩
    rw [sub_add_cancel]
    exact not_le.1 (mt test.2 ‹_›)

/-- Dividing a multiple of `d` by `d` rounds nothing. -/
theorem divNearestEven_exact {m d : Nat} (hd : 0 < d) : divNearestEven (m * d) d = m := by
  simp [divNearestEven, hd, Nat.mul_div_cancel _ hd]

/-- `divNearestEven` is an integer nearest to the quotient, even where two are as near. -/
theorem divNearestEven_near (n : Nat) {d : Nat} (hd : 0 < d) :
    2 * n ≤ (2 * divNearestEven n d + 1) * d ∧ 2 * divNearestEven n d * d ≤ 2 * n + d ∧
    ((2 * n = (2 * divNearestEven n d + 1) * d ∨ 2 * divNearestEven n d * d = 2 * n + d) → divNearestEven n d % 2 = 0) := by
  have hdm := Nat.div_add_mod n d
  have hr := Nat.mod_lt n hd
  have hexp : ∀ k : Nat, (2 * k + 1) * d = 2 * (d * k) + d ∧ 2 * k * d = 2 * (d * k) ∧ d * (k + 1) = d * k + d := by
    intro k
    refine ⟨by ring, by ring, by ring⟩
  unfold divNearestEven
  simp only []
  generalize hq : n / d = q at *
  generalize n % d = r at *
  obtain ⟨e1, e2, e3⟩ := hexp q
  obtain ⟨f1, f2, -⟩ := hexp (q + 1)
  split
  · rw [e1, e2]; omega
  · split
    · rw [f1, f2, e3]; omega
    · rcases Nat.mod_two_eq_zero_or_one q with hm | hm
      · rw [hm]; simp only [Nat.add_zero]; rw [e1, e2]; omega
      · rw [hm, f1, f2, e3]; omega

/-- Everything `f64Round` does to a value other than 0: the value is `y × 2^q` with `q` the exponent of the last place, `m` is
an integer nearest to `y`, the even one where two are as near, and the result is the magnitude of `m × 2^q`, or infinity
from there on. -/
theorem f64Round_cases (s : Bool) {n d : Nat} (e : Int) (hn : 0 < n) (hd : 0 < d) :
    ∃ (m : Nat) (q : Int) (y : ℚ), (n : ℚ) / d * 2 ^ e = y * 2 ^ q ∧ -1074 ≤ q ∧ 0 < y ∧ y < 2 ^ 53 ∧
      (2 ^ 52 ≤ y ∨ q = -1074) ∧ (2 ^ 52 ≤ m ∨ q = -1074) ∧ m ≤ 2 ^ 53 ∧ |(m : ℚ) - y| ≤ 1 / 2 ∧
      (|(m : ℚ) - y| = 1 / 2 → m % 2 = 0) ∧
      f64Round s n d e = f64Signed s
        (if f64InfBits ≤ (q + 1074).toNat * 2 ^ 52 + m then f64InfBits else (q + 1074).toNat * 2 ^ 52 + m) := by
  have hd' : (0 : ℚ) < d := by exact_mod_cast hd
  have hn' : (0 : ℚ) < n := by exact_mod_cast hn
  obtain ⟨lo, hi⟩ := log2Ratio_spec hn hd
  obtain ⟨q, hq⟩ : ∃ q, q = max (log2Ratio n d + e - 52) (-1074) := ⟨_, rfl⟩
  obtain ⟨m, hm⟩ : ∃ m, m = divNearestEven (n * 2 ^ (e - q).toNat) (d * 2 ^ (q - e).toNat) := ⟨_, rfl⟩
  obtain ⟨y, hy⟩ : ∃ y : ℚ, y = (n : ℚ) / d * 2 ^ (e - q) := ⟨_, rfl⟩
  have hx : (n : ℚ) / d * 2 ^ e = y * 2 ^ q := by
    rw [hy, mul_assoc, ← zpow_add₀ two_ne_zero]
    congr 2
    omega
  have hpos : 0 < d * 2 ^ (q - e).toNat := by positivity
  obtain ⟨near1, near2, tie⟩ := divNearestEven_near (n * 2 ^ (e - q).toNat) hpos
  rw [← hm] at near1 near2 tie
  have hnum : ((n * 2 ^ (e - q).toNat : ℕ) : ℚ) = y * ((d * 2 ^ (q - e).toNat : ℕ) : ℚ) := by
    have : (2 : ℚ) ^ (e - q).toNat = 2 ^ (e - q) * 2 ^ (q - e).toNat := by
      rw [← zpow_natCast, ← zpow_natCast, ← zpow_add₀ two_ne_zero]
      congr 1
      omega
    rw [hy]
    push_cast
    rw [this]
    field_simp
  have hresult : f64Round s n d e = f64Signed s
      (if f64InfBits ≤ (q + 1074).toNat * 2 ^ 52 + m then f64InfBits else (q + 1074).toNat * 2 ^ 52 + m) := by
    rw [f64Round, if_neg hn.ne', hm, hq]
  generalize n * 2 ^ (e - q).toNat = num at *
  generalize d * 2 ^ (q - e).toNat = den at *
  have hden : (0 : ℚ) < den := by exact_mod_cast hpos
  have above : y ≤ m + 1 / 2 := by
    have h : (2 * num : ℚ) ≤ (2 * m + 1) * den := by exact_mod_cast near1
    rw [hnum] at h
    have := le_of_mul_le_mul_right (by linarith : (2 * y) * den ≤ (2 * m + 1) * den) hden
    linarith
  have below : (m : ℚ) ≤ y + 1 / 2 := by
    have h : (2 * m * den : ℚ) ≤ 2 * num + den := by exact_mod_cast near2
    rw [hnum] at h
    have := le_of_mul_le_mul_right (by linarith : (2 * m) * den ≤ (2 * y + 1) * den) hden
    linarith
  have even : |(m : ℚ) - y| = 1 / 2 → m % 2 = 0 := by
    intro h
    apply tie
    rcases (abs_eq (by norm_num)).1 h with h | h
    · right
      have : (2 * m * den : ℚ) = 2 * num + den := by rw [hnum, sub_eq_iff_eq_add.1 h]; ring
      exact_mod_cast this
    · left
      have : (2 * num : ℚ) = (2 * m + 1) * den := by rw [hnum, sub_eq_iff_eq_add.1 h]; ring
      exact_mod_cast this
  have yhi : y < 2 ^ 53 := by
    calc y < (2 : ℚ) ^ (log2Ratio n d + 1) * 2 ^ (e - q) := by rw [hy]; gcongr
      _ = 2 ^ (log2Ratio n d + 1 + (e - q)) := by rw [← zpow_add₀ two_ne_zero]
      _ ≤ 2 ^ (53 : ℤ) := zpow_le_zpow_right₀ (by norm_num) (by omega)
      _ = 2 ^ 53 := by norm_num
  have ylo : 2 ^ 52 ≤ y ∨ q = -1074 := by
    rcases (by omega : q = log2Ratio n d + e - 52 ∨ q = -1074) with h | h
    · left
      have h52 : log2Ratio n d + (e - q) = 52 := by omega
      calc (2 : ℚ) ^ 52 = 2 ^ (log2Ratio n d + (e - q)) := by rw [h52]; norm_num
        _ = 2 ^ log2Ratio n d * 2 ^ (e - q) := by rw [← zpow_add₀ two_ne_zero]
        _ ≤ y := by rw [hy]; gcongr
    · exact .inr h
  refine ⟨m, q, y, hx, by omega, by rw [hy]; positivity, yhi, ylo, ?_, ?_,
    abs_le.2 ⟨by linarith, by linarith⟩, even, hresult⟩
  · refine ylo.imp_left fun h => ?_
    by_contra hlt
    have : (m + 1 : ℚ) ≤ 2 ^ 52 := by exact_mod_cast (by omega : m + 1 ≤ 2 ^ 52)
    linarith
  · by_contra hgt
    have : (2 ^ 53 + 1 : ℚ) ≤ m := by exact_mod_cast (by omega : 2 ^ 53 + 1 ≤ m)
    linarith

/-- The encoding of `(-1)^s × m × 2^q` for a normal significand `m`. -/
def f64Normal (s : Bool) (m : Nat) (q : Int) : Word := f64Signed s ((q + 1074).toNat * 2 ^ 52 + m)

/-- Rounding a value that is a normal binary64 number rounds nothing. -/
theorem f64Round_exact (s : Bool) {n d m : Nat} {e q : Int} (hn : 0 < n) (hd : 0 < d)
    (hm : 2 ^ 52 ≤ m) (hm' : m < 2 ^ 53) (hq : -1074 ≤ q) (hq' : q ≤ 971)
    (h : (n : ℚ) / d * 2 ^ e = m * 2 ^ q) : f64Round s n d e = f64Normal s m q := by
  have hd' : (0 : ℚ) < d := by exact_mod_cast hd
  have ratio : (n : ℚ) / d = m * 2 ^ (q - e) := by
    rw [zpow_sub₀ two_ne_zero, ← mul_div_assoc, ← h]
    field_simp
  obtain ⟨lo, hi⟩ := log2Ratio_spec hn hd
  have hlog : log2Ratio n d + e - 52 = q := by
    have mlo : (2 : ℚ) ^ (52 : ℤ) ≤ m := by exact_mod_cast hm
    have mhi : (m : ℚ) < 2 ^ (53 : ℤ) := by exact_mod_cast hm'
    have a : (2 : ℚ) ^ (52 + (q - e)) < 2 ^ (log2Ratio n d + 1) := by
      refine lt_of_le_of_lt ?_ hi
      rw [ratio, zpow_add₀ two_ne_zero]
      gcongr
    have b : (2 : ℚ) ^ log2Ratio n d < 2 ^ (53 + (q - e)) := by
      refine lt_of_le_of_lt lo ?_
      rw [ratio, zpow_add₀ two_ne_zero]
      gcongr
    have a' := (zpow_lt_zpow_iff_right₀ (one_lt_two (α := ℚ))).1 a
    have b' := (zpow_lt_zpow_iff_right₀ (one_lt_two (α := ℚ))).1 b
    omega
  have hprod : n * 2 ^ (e - q).toNat = m * (d * 2 ^ (q - e).toNat) := by
    have : (n : ℚ) * 2 ^ (e - q).toNat = m * (d * 2 ^ (q - e).toNat) := by
      have key : (2 : ℚ) ^ (q - e) * 2 ^ (e - q).toNat = 2 ^ (q - e).toNat := by
        rw [← zpow_natCast, ← zpow_natCast, ← zpow_add₀ two_ne_zero]
        congr 1; omega
      rw [div_eq_iff hd'.ne'] at ratio
      rw [ratio]
      linear_combination (m : ℚ) * d * key
    exact_mod_cast this
  have hmag : ¬ f64InfBits ≤ (q + 1074).toNat * 2 ^ 52 + m := by
    unfold f64InfBits
    have : (q + 1074).toNat ≤ 2045 := by omega
    omega
  unfold f64Round
  rw [if_neg hn.ne']
  have hpos : 0 < d * 2 ^ (q - e).toNat := by positivity
  simp only [hlog, max_eq_left hq, hprod, divNearestEven_exact hpos, if_neg hmag]
  rfl

/-- The number of a signed magnitude. -/
theorem f64Signed_toNat (s : Bool) {mag : Nat} (h : mag < 2 ^ 63) :
    (f64Signed s mag).toNat = s.toNat * 2 ^ 63 + mag := by
  unfold f64Signed
  rw [BitVec.toNat_append, BitVec.toNat_ofNat, BitVec.toNat_ofBool, Nat.mod_eq_of_lt h,
    ← Nat.shiftLeft_add_eq_or_of_lt h, Nat.shiftLeft_eq]

/-- The class of a signed magnitude below infinity: its exponent field `mag / 2^52` and fraction `mag % 2^52` (R10). -/
theorem f64Class_signed (s : Bool) {mag : Nat} (h : mag < f64InfBits) :
    f64Class (f64Signed s mag) =
      if mag / 2 ^ 52 = 0 then .finite s mag (-1074)
      else .finite s (2 ^ 52 + mag % 2 ^ 52) (((mag / 2 ^ 52 : ℕ) : Int) - 1075) := by
  unfold f64InfBits at h
  have htn := f64Signed_toNat s (mag := mag) (by omega)
  have hE : ((f64Signed s mag).extractLsb' 52 11).toNat = mag / 2 ^ 52 := by
    rw [BitVec.extractLsb'_toNat, htn, Nat.shiftRight_eq_div_pow]
    cases s <;> simp only [Bool.toNat_true, Bool.toNat_false] <;> omega
  have hF : ((f64Signed s mag).extractLsb' 0 52).toNat = mag % 2 ^ 52 := by
    rw [BitVec.extractLsb'_toNat, htn, Nat.shiftRight_eq_div_pow]
    cases s <;> simp only [Bool.toNat_true, Bool.toNat_false] <;> omega
  have hS : (f64Signed s mag).getLsbD 63 = s := by
    rw [BitVec.getLsbD, htn, Nat.testBit_eq_decide_div_mod_eq]
    cases s <;> simp only [Bool.toNat_true, Bool.toNat_false] <;> simp <;> omega
  unfold f64Class
  simp only [hE, hF, hS]
  rw [if_neg (by omega)]
  split
  · have : mag % 2 ^ 52 = mag := by omega
    rw [this]
  · rfl

/-- A finite binary64 number is `(-1)^s × m × 2^e` for an integer `m` of 53 bits and `e` at least -1074 (R10). -/
theorem asF64_finite {p : Word} {x : ℚ} (h : asF64 p = some x) :
    ∃ s m e, f64Class p = .finite s m e ∧ x = (if s then -1 else 1) * (m : ℚ) * 2 ^ e ∧ m < 2 ^ 53 ∧ -1074 ≤ e := by
  have frac := (p.extractLsb' 0 52).isLt
  have hc : f64Class p = f64Class p := rfl
  conv at hc => rhs; unfold f64Class
  simp only [] at hc
  unfold asF64 at h
  split at hc
  · split at hc <;> simp [hc, classValue] at h
  · split at hc
    all_goals
      rw [hc, classValue, Option.some.injEq] at h
      exact ⟨_, _, _, hc, h.symm, by omega, by omega⟩

/-- The last bit of a signed magnitude. -/
theorem f64Signed_lsb (s : Bool) (mag : Nat) : (f64Signed s mag).getLsbD 0 = decide (mag % 2 = 1) := by
  rw [f64Signed, BitVec.getLsbD_append, if_pos (by decide), BitVec.getLsbD_ofNat]
  simp [Nat.testBit_zero]

/-- A zero is a finite value with integer 0. -/
theorem f64Class_zero (s : Bool) : f64Class (f64Signed s 0) = .finite s 0 (-1074) := by
  cases s <;> decide

/-- The class of a normal number. -/
theorem f64Class_normal (s : Bool) {m : Nat} {q : Int} (hm : 2 ^ 52 ≤ m) (hm' : m < 2 ^ 53)
    (hq : -1074 ≤ q) (hq' : q ≤ 971) : f64Class (f64Normal s m q) = .finite s m q := by
  have hdiv : ((q + 1074).toNat * 2 ^ 52 + m) / 2 ^ 52 = (q + 1075).toNat := by omega
  have hmod : 2 ^ 52 + ((q + 1074).toNat * 2 ^ 52 + m) % 2 ^ 52 = m := by omega
  have hexp : ((q + 1075).toNat : Int) - 1075 = q := by omega
  rw [f64Normal, f64Class_signed s (by unfold f64InfBits; omega), hdiv, if_neg (by omega), hmod, hexp]

/-- The value of a result of `f64Round`: `(-1)^s × m × 2^q` for the rounded significand `m`, a carry out of 53 bits
included. -/
theorem classValue_rounded (s : Bool) {m : Nat} {q : Int} (hq : -1074 ≤ q) (hm : 2 ^ 52 ≤ m ∨ q = -1074)
    (hm' : m ≤ 2 ^ 53) (h : (q + 1074).toNat * 2 ^ 52 + m < f64InfBits) :
    classValue (f64Class (f64Signed s ((q + 1074).toNat * 2 ^ 52 + m))) =
      some ((if s then -1 else 1) * (m : ℚ) * 2 ^ q) := by
  rcases Nat.lt_or_ge m (2 ^ 52) with hlt | hge
  · obtain rfl : q = -1074 := by omega
    have hz : ((-1074 : Int) + 1074).toNat * 2 ^ 52 + m = m := by simp
    rw [f64Class_signed s h, hz, if_pos (by omega)]
    rfl
  · rcases Nat.lt_or_ge m (2 ^ 53) with hlt | hge'
    · have := f64Class_normal s hge hlt hq (by unfold f64InfBits at h; omega)
      rw [f64Normal] at this
      rw [this]
      rfl
    · obtain rfl : m = 2 ^ 53 := by omega
      have hdiv : ((q + 1074).toNat * 2 ^ 52 + 2 ^ 53) / 2 ^ 52 = (q + 1076).toNat := by omega
      have hmod : 2 ^ 52 + ((q + 1074).toNat * 2 ^ 52 + 2 ^ 53) % 2 ^ 52 = 2 ^ 52 := by omega
      have hexp : ((q + 1076).toNat : Int) - 1075 = 1 + q := by omega
      rw [f64Class_signed s h, hdiv, if_neg (by omega), hmod, hexp]
      have hval : ((2 ^ 52 : ℕ) : ℚ) * 2 ^ (1 + q) = ((2 ^ 53 : ℕ) : ℚ) * 2 ^ q := by
        rw [zpow_add₀ two_ne_zero]
        push_cast
        ring
      rw [classValue, mul_assoc, hval, ← mul_assoc]

/-- A nonnegative rational that is zero or a normal binary64 number. -/
def Normal (x : ℚ) : Prop :=
  x = 0 ∨ ∃ (m : Nat) (q : Int), 2 ^ 52 ≤ m ∧ m < 2 ^ 53 ∧ -1074 ≤ q ∧ q ≤ 971 ∧ x = m * 2 ^ q

/-- `p` is the binary64 encoding of `(-1)^s × x`, for an `x` that is zero or normal. -/
def Encodes (p : Word) (s : Bool) (x : ℚ) : Prop :=
  (x = 0 ∧ p = f64Signed s 0) ∨
  ∃ (m : Nat) (q : Int), 2 ^ 52 ≤ m ∧ m < 2 ^ 53 ∧ -1074 ≤ q ∧ q ≤ 971 ∧ x = m * 2 ^ q ∧ p = f64Normal s m q

/-- What an encoding stands for, in the form the operations read. -/
theorem Encodes.class {p : Word} {s : Bool} {x : ℚ} (h : Encodes p s x) :
    ∃ m e, f64Class p = .finite s m e ∧ x = (m : ℚ) * 2 ^ e := by
  obtain ⟨rfl, rfl⟩ | ⟨m, q, h1, h2, h3, h4, rfl, rfl⟩ := h
  · exact ⟨0, -1074, f64Class_zero s, by simp⟩
  · exact ⟨m, q, f64Class_normal s h1 h2 h3 h4, rfl⟩

/-- Rounding a zero or normal value gives its encoding. -/
theorem f64Round_encodes (s : Bool) {n d : Nat} {e : Int} {x : ℚ} (hd : 0 < d) (hx : Normal x)
    (h : (n : ℚ) / d * 2 ^ e = x) : Encodes (f64Round s n d e) s x := by
  have hd' : (0 : ℚ) < d := by exact_mod_cast hd
  rcases Nat.eq_zero_or_pos n with rfl | hn
  · left; exact ⟨by simpa using h.symm, by simp [f64Round]⟩
  · obtain rfl | ⟨m, q, h1, h2, h3, h4, rfl⟩ := hx
    · have hn' : (0 : ℚ) < n := by exact_mod_cast hn
      have : (0 : ℚ) < (n : ℚ) / d * 2 ^ e := by positivity
      exact absurd h this.ne'
    · exact .inr ⟨m, q, h1, h2, h3, h4, rfl, f64Round_exact s hn hd h1 h2 h3 h4 h⟩

/-- A value has one encoding for each sign. -/
theorem Encodes.unique {p r : Word} {s : Bool} {x : ℚ} (hp : Encodes p s x) (hr : Encodes r s x) : p = r := by
  have pos : ∀ {m : Nat} {q : Int}, 2 ^ 52 ≤ m → (0 : ℚ) < m * 2 ^ q := by
    intro m q hm
    have : (0 : ℚ) < m := by exact_mod_cast lt_of_lt_of_le (by norm_num) hm
    positivity
  obtain ⟨rfl, rfl⟩ | ⟨m, q, h1, h2, h3, h4, rfl, rfl⟩ := hp
  · obtain ⟨-, rfl⟩ | ⟨m', q', g1, -, -, -, g5, -⟩ := hr
    · rfl
    · exact absurd g5 (pos g1).ne
  · obtain ⟨g0, -⟩ | ⟨m', q', g1, g2, g3, g4, g5, rfl⟩ := hr
    · exact absurd g0 (pos h1).ne'
    · have hm : (0 : ℚ) < m := by exact_mod_cast lt_of_lt_of_le (by norm_num) h1
      have := f64Round_exact s (n := m) (d := 1) (e := q) (by omega) one_pos h1 h2 h3 h4 (by simp)
      rw [← this]
      exact f64Round_exact s (by omega) one_pos g1 g2 g3 g4 (by simpa using g5)

/-- A natural number below `2^53`, scaled by a power of two in the normal range, is zero or normal. -/
theorem normal_scaled {n : Nat} {e : Int} (hn : n < 2 ^ 53) (he : -1022 ≤ e) (he' : e ≤ 971) :
    Normal ((n : ℚ) * 2 ^ e) := by
  rcases Nat.eq_zero_or_pos n with rfl | hpos
  · left; simp
  · right
    have hlog : Nat.log2 n ≤ 52 := by
      have := (Nat.log2_lt hpos.ne').2 hn
      omega
    have hlo := Nat.log2_self_le hpos.ne'
    have hhi : n < 2 ^ (Nat.log2 n + 1) := Nat.lt_log2_self
    refine ⟨n * 2 ^ (52 - Nat.log2 n), e - (52 - Nat.log2 n : ℕ), ?_, ?_, by omega, by omega, ?_⟩
    · calc 2 ^ 52 = 2 ^ Nat.log2 n * 2 ^ (52 - Nat.log2 n) := by rw [← pow_add]; congr 1; omega
        _ ≤ _ := Nat.mul_le_mul_right _ hlo
    · calc n * 2 ^ (52 - Nat.log2 n) < 2 ^ (Nat.log2 n + 1) * 2 ^ (52 - Nat.log2 n) :=
          Nat.mul_lt_mul_of_pos_right hhi (by positivity)
        _ = 2 ^ 53 := by rw [← pow_add]; congr 1; omega
    · rw [zpow_sub₀ two_ne_zero, zpow_natCast]
      push_cast
      field_simp

/-- `f64OfNat` of a number below `2^53` encodes it. -/
theorem f64OfNat_encodes {n : Nat} (hn : n < 2 ^ 53) : Encodes (f64OfNat n) false n :=
  f64Round_encodes false one_pos (by simpa using normal_scaled (e := 0) hn (by norm_num) (by norm_num)) (by simp)

/-- `pow2 k` encodes `2^k` in the range R11 gives it. -/
theorem pow2_encodes {k : Int} (hk : -1022 ≤ k) (hk' : k ≤ 971) : Encodes (pow2 k) false (2 ^ k) :=
  f64Round_encodes false one_pos (by simpa using normal_scaled (n := 1) (by norm_num) hk hk') (by simp)

/-- A product of two encodings, exact where it is zero or normal. -/
theorem fmul_encodes {a b : Word} {s t : Bool} {x y : ℚ} (ha : Encodes a s x) (hb : Encodes b t y)
    (h : Normal (x * y)) : Encodes (fmul a b) (s ^^ t) (x * y) := by
  obtain ⟨m, e, hc, rfl⟩ := ha.class
  obtain ⟨n, f, hd, rfl⟩ := hb.class
  unfold fmul
  rw [hc, hd]
  refine f64Round_encodes _ one_pos h ?_
  rw [zpow_add₀ two_ne_zero]
  push_cast
  ring

/-- A quotient of two encodings, exact where it is zero or normal. -/
theorem fdiv_encodes {a b : Word} {s t : Bool} {x y : ℚ} (ha : Encodes a s x) (hb : Encodes b t y) (hy : y ≠ 0)
    (h : Normal (x / y)) : Encodes (fdiv a b) (s ^^ t) (x / y) := by
  obtain ⟨m, e, hc, rfl⟩ := ha.class
  obtain ⟨n, f, hd, rfl⟩ := hb.class
  have hn : n ≠ 0 := by rintro rfl; simp at hy
  have hn' : (n : ℚ) ≠ 0 := by exact_mod_cast hn
  unfold fdiv
  rw [hc, hd]
  simp only [if_neg hn]
  refine f64Round_encodes _ (Nat.pos_of_ne_zero hn) h ?_
  rw [zpow_sub₀ two_ne_zero]
  field_simp

/-- A sum of two nonnegative encodings, exact where it is zero or normal. -/
theorem fadd_encodes {a b : Word} {x y : ℚ} (ha : Encodes a false x) (hb : Encodes b false y)
    (h : Normal (x + y)) : Encodes (fadd a b) false (x + y) := by
  obtain ⟨m, e, hc, rfl⟩ := ha.class
  obtain ⟨n, f, hd, rfl⟩ := hb.class
  have scale : ∀ {m : Nat} {e g : Int}, g ≤ e →
      ((m * 2 ^ (e - g).toNat : ℕ) : ℚ) * 2 ^ g = (m : ℚ) * 2 ^ e := by
    intro m e g hg
    push_cast
    rw [mul_assoc, ← zpow_natCast, ← zpow_add₀ two_ne_zero]
    congr 2; omega
  have hsum : (m : ℚ) * 2 ^ e + (n : ℚ) * 2 ^ f =
      ((m * 2 ^ (e - min e f).toNat + n * 2 ^ (f - min e f).toNat : ℕ) : ℚ) * 2 ^ (min e f) := by
    rw [Nat.cast_add, add_mul, scale (min_le_left e f), scale (min_le_right e f)]
  unfold fadd
  rw [hc, hd]
  simp only [scaledInt, Bool.false_eq_true, if_false, one_mul, Bool.and_false]
  generalize hk : m * 2 ^ (e - min e f).toNat = k at *
  generalize hl : n * 2 ^ (f - min e f).toNat = l at *
  split
  · have : k + l = 0 := by omega
    left
    exact ⟨by rw [hsum, this]; simp, rfl⟩
  · have hneg : decide (((k : ℤ) + (l : ℤ)) < 0) = false := by simp; omega
    rw [hneg]
    refine f64Round_encodes _ one_pos h ?_
    rw [hsum]
    congr 1
    have : ((k : ℤ) + (l : ℤ)).natAbs = k + l := by omega
    rw [this]; simp

/-- Negation of an encoding. -/
theorem fneg_encodes {a : Word} {s : Bool} {x : ℚ} (ha : Encodes a s x) : Encodes (fneg a) (!s) x := by
  have flip : ∀ mag, fneg (f64Signed s mag) = f64Signed (!s) mag := by
    intro mag
    apply BitVec.eq_of_getLsbD_eq
    intro i hi
    have hc : (0x8000000000000000 : Word).getLsbD i = decide (i = 63) := by
      rw [show (0x8000000000000000 : Word) = BitVec.twoPow 64 63 from by decide, BitVec.getLsbD_twoPow]
      simp [eq_comm]
    simp only [fneg, f64Signed, BitVec.getLsbD_xor, BitVec.getLsbD_append, hc]
    rcases Nat.lt_or_ge i 63 with h | h
    · simp [h, h.ne]
    · obtain rfl : i = 63 := by omega
      cases s <;> simp
  obtain ⟨rfl, rfl⟩ | ⟨m, q, h1, h2, h3, h4, rfl, rfl⟩ := ha
  · exact .inl ⟨rfl, flip 0⟩
  · exact .inr ⟨m, q, h1, h2, h3, h4, rfl, flip _⟩

end Sys2Proof.Laws
end

