-- ==== Sys2Proof/Laws/Operands.lean ====
section
/-!
SUPPORT. The byte view of a 48-bit value, as numbers: what each byte and each field is, and that six bytes make the word they
are the bytes of (spec/00_scope.md R8).
-/

namespace Sys2Proof.Laws

open Sys2Proof.Machine

/-- The number of a byte. -/
theorem byteOf_toNat (w : Bytes6) (i : Nat) : (byteOf w i).toNat = w.toNat / 2 ^ (40 - 8 * i) % 256 := by
  rw [byteOf, BitVec.extractLsb'_toNat, Nat.shiftRight_eq_div_pow]

/-- The number of M39 (R101). -/
theorem mant39_toNat (w : Bytes6) : (mant39 w).toNat = w.toNat / 2 ^ 8 % 2 ^ 39 := by
  rw [mant39, BitVec.extractLsb'_toNat, Nat.shiftRight_eq_div_pow]

/-- The number of M23 (R100). -/
theorem mant23_toNat (w : Bytes6) : (mant23 w).toNat = w.toNat / 2 ^ 24 % 2 ^ 23 := by
  rw [mant23, BitVec.extractLsb'_toNat, Nat.shiftRight_eq_div_pow]

/-- The number of the sign bit (R22). -/
theorem signOf_toNat (w : Bytes6) : (signOf w).toNat = w.toNat / 2 ^ 47 % 2 := by
  rw [signOf, BitVec.extractLsb'_toNat, Nat.shiftRight_eq_div_pow]

/-- The number of the exponent byte (R23). -/
theorem expOf_toNat (w : Bytes6) : (expOf w).toNat = w.toNat % 256 := by
  rw [expOf, BitVec.extractLsb'_toNat, Nat.shiftRight_eq_div_pow, pow_zero, Nat.div_one]

/-- The number of two bit vectors joined. -/
theorem append_toNat {m n : Nat} (x : BitVec m) (y : BitVec n) : (x ++ y).toNat = x.toNat * 2 ^ n + y.toNat := by
  rw [BitVec.toNat_append, ← Nat.shiftLeft_add_eq_or_of_lt y.isLt, Nat.shiftLeft_eq]

/-- The number of six bytes. -/
theorem ofBytes_toNat (b0 b1 b2 b3 b4 b5 : Byte) : (ofBytes b0 b1 b2 b3 b4 b5).toNat =
    b0.toNat * 2 ^ 40 + b1.toNat * 2 ^ 32 + b2.toNat * 2 ^ 24 + b3.toNat * 2 ^ 16 + b4.toNat * 2 ^ 8 + b5.toNat := by
  unfold ofBytes
  rw [append_toNat, append_toNat, append_toNat, append_toNat, append_toNat]
  ring

/-- The bytes of six bytes are those bytes. -/
theorem byteOf_ofBytes (b0 b1 b2 b3 b4 b5 : Byte) :
    byteOf (ofBytes b0 b1 b2 b3 b4 b5) 0 = b0 ∧ byteOf (ofBytes b0 b1 b2 b3 b4 b5) 1 = b1 ∧
    byteOf (ofBytes b0 b1 b2 b3 b4 b5) 2 = b2 ∧ byteOf (ofBytes b0 b1 b2 b3 b4 b5) 3 = b3 ∧
    byteOf (ofBytes b0 b1 b2 b3 b4 b5) 4 = b4 ∧ byteOf (ofBytes b0 b1 b2 b3 b4 b5) 5 = b5 := by
  have h0 := b0.isLt
  have h1 := b1.isLt
  have h2 := b2.isLt
  have h3 := b3.isLt
  have h4 := b4.isLt
  have h5 := b5.isLt
  refine ⟨?_, ?_, ?_, ?_, ?_, ?_⟩ <;> apply BitVec.eq_of_toNat_eq <;> rw [byteOf_toNat, ofBytes_toNat] <;> omega

/-- A byte of the reversed buffer (R91). -/
theorem byteOf_reverseBytes (w : Bytes6) {i : Nat} (hi : i < 6) : byteOf (reverseBytes w) i = byteOf w (5 - i) := by
  obtain ⟨h0, h1, h2, h3, h4, h5⟩ :=
    byteOf_ofBytes (byteOf w 5) (byteOf w 4) (byteOf w 3) (byteOf w 2) (byteOf w 1) (byteOf w 0)
  unfold reverseBytes
  interval_cases i
  · exact h0
  · exact h1
  · exact h2
  · exact h3
  · exact h4
  · exact h5

end Sys2Proof.Laws
end

