-- ==== Sys2Proof/Laws/State.lean ====
section
/-!
SUPPORT. The fields of a state after each update of the model: one lemma per field per update, so that no later proof unfolds a
record update.
-/

namespace Sys2Proof.Laws

open Sys2Proof.Machine

@[simp] theorem respond_buf (st : Status) (d : Word) (s : State) : (respond st d s).buf = s.buf := rfl
@[simp] theorem respond_sign (st : Status) (d : Word) (s : State) : (respond st d s).sign = s.sign := rfl
@[simp] theorem respond_exp (st : Status) (d : Word) (s : State) : (respond st d s).exp = s.exp := rfl
@[simp] theorem respond_valid (st : Status) (d : Word) (s : State) : (respond st d s).valid = s.valid := rfl
@[simp] theorem respond_rspValid (st : Status) (d : Word) (s : State) : (respond st d s).rspValid = true := rfl
@[simp] theorem respond_rspStatus (st : Status) (d : Word) (s : State) : (respond st d s).rspStatus = statusCode st := rfl
@[simp] theorem respond_rspData (st : Status) (d : Word) (s : State) : (respond st d s).rspData = d := rfl
@[simp] theorem respond_inputs (st : Status) (d : Word) (s : State) : (respond st d s).inputs = s.inputs := rfl

@[simp] theorem raise_buf (st : Status) (s : State) : (raise st s).buf = s.buf := rfl
@[simp] theorem raise_sign (st : Status) (s : State) : (raise st s).sign = s.sign := rfl
@[simp] theorem raise_exp (st : Status) (s : State) : (raise st s).exp = s.exp := rfl
@[simp] theorem raise_valid (st : Status) (s : State) : (raise st s).valid = s.valid := rfl
@[simp] theorem raise_rspValid (st : Status) (s : State) : (raise st s).rspValid = true := rfl
@[simp] theorem raise_rspStatus (st : Status) (s : State) : (raise st s).rspStatus = statusCode st := rfl
@[simp] theorem raise_rspData (st : Status) (s : State) : (raise st s).rspData = 0 := rfl
@[simp] theorem raise_inputs (st : Status) (s : State) : (raise st s).inputs = s.inputs := rfl

@[simp] theorem writeBuf_buf (v : Bytes6) (s : State) : (writeBuf v s).buf = v := rfl
@[simp] theorem writeBuf_sign (v : Bytes6) (s : State) : (writeBuf v s).sign = signOf v := rfl
@[simp] theorem writeBuf_exp (v : Bytes6) (s : State) : (writeBuf v s).exp = expOf v := rfl
@[simp] theorem writeBuf_valid (v : Bytes6) (s : State) : (writeBuf v s).valid = s.valid := rfl
@[simp] theorem writeBuf_rspValid (v : Bytes6) (s : State) : (writeBuf v s).rspValid = s.rspValid := rfl
@[simp] theorem writeBuf_rspStatus (v : Bytes6) (s : State) : (writeBuf v s).rspStatus = s.rspStatus := rfl
@[simp] theorem writeBuf_rspData (v : Bytes6) (s : State) : (writeBuf v s).rspData = s.rspData := rfl
@[simp] theorem writeBuf_inputs (v : Bytes6) (s : State) : (writeBuf v s).inputs = s.inputs := rfl

@[simp] theorem setValid_buf (s : State) : (setValid s).buf = s.buf := rfl
@[simp] theorem setValid_sign (s : State) : (setValid s).sign = s.sign := rfl
@[simp] theorem setValid_exp (s : State) : (setValid s).exp = s.exp := rfl
@[simp] theorem setValid_valid (s : State) : (setValid s).valid = true := rfl
@[simp] theorem setValid_rspValid (s : State) : (setValid s).rspValid = s.rspValid := rfl
@[simp] theorem setValid_rspStatus (s : State) : (setValid s).rspStatus = s.rspStatus := rfl
@[simp] theorem setValid_rspData (s : State) : (setValid s).rspData = s.rspData := rfl
@[simp] theorem setValid_inputs (s : State) : (setValid s).inputs = s.inputs := rfl

@[simp] theorem idleEdge_buf (s : State) : (idleEdge s).buf = s.buf := rfl
@[simp] theorem idleEdge_sign (s : State) : (idleEdge s).sign = s.sign := rfl
@[simp] theorem idleEdge_exp (s : State) : (idleEdge s).exp = s.exp := rfl
@[simp] theorem idleEdge_valid (s : State) : (idleEdge s).valid = s.valid := rfl
@[simp] theorem idleEdge_rspValid (s : State) : (idleEdge s).rspValid = false := rfl
@[simp] theorem idleEdge_rspStatus (s : State) : (idleEdge s).rspStatus = s.rspStatus := rfl
@[simp] theorem idleEdge_rspData (s : State) : (idleEdge s).rspData = s.rspData := rfl
@[simp] theorem idleEdge_inputs (s : State) : (idleEdge s).inputs = s.inputs := rfl

@[simp] theorem resetEdge_buf (s : State) : (resetEdge s).buf = s.buf := rfl
@[simp] theorem resetEdge_sign (s : State) : (resetEdge s).sign = s.sign := rfl
@[simp] theorem resetEdge_exp (s : State) : (resetEdge s).exp = s.exp := rfl
@[simp] theorem resetEdge_valid (s : State) : (resetEdge s).valid = false := rfl
@[simp] theorem resetEdge_rspValid (s : State) : (resetEdge s).rspValid = false := rfl
@[simp] theorem resetEdge_rspStatus (s : State) : (resetEdge s).rspStatus = 0 := rfl
@[simp] theorem resetEdge_rspData (s : State) : (resetEdge s).rspData = 0 := rfl
@[simp] theorem resetEdge_inputs (s : State) : (resetEdge s).inputs = s.inputs := rfl

@[simp] theorem withFetchWord_buf (s : State) (nbits w : Nat) :
    (s.withFetchWord nbits w).buf = s.buf := rfl
@[simp] theorem withFetchWord_sign (s : State) (nbits w : Nat) :
    (s.withFetchWord nbits w).sign = s.sign := rfl
@[simp] theorem withFetchWord_exp (s : State) (nbits w : Nat) :
    (s.withFetchWord nbits w).exp = s.exp := rfl
@[simp] theorem withFetchWord_valid (s : State) (nbits w : Nat) :
    (s.withFetchWord nbits w).valid = s.valid := rfl
@[simp] theorem withFetchWord_rspValid (s : State) (nbits w : Nat) :
    (s.withFetchWord nbits w).rspValid = s.rspValid := rfl
@[simp] theorem withFetchWord_rspStatus (s : State) (nbits w : Nat) :
    (s.withFetchWord nbits w).rspStatus = s.rspStatus := rfl
@[simp] theorem withFetchWord_rspData (s : State) (nbits w : Nat) :
    (s.withFetchWord nbits w).rspData = s.rspData := rfl
@[simp] theorem withFetchWord_inputs (s : State) (nbits w : Nat) :
    (s.withFetchWord nbits w).inputs = issue (BitVec.ofNat 64 (w % 2 ^ nbits)) :: s.inputs.tail := rfl
@[simp] theorem placeCommand_buf (s : State) (c : Word) : (placeCommand s c).buf = s.buf := rfl
@[simp] theorem placeCommand_sign (s : State) (c : Word) : (placeCommand s c).sign = s.sign := rfl
@[simp] theorem placeCommand_exp (s : State) (c : Word) : (placeCommand s c).exp = s.exp := rfl
@[simp] theorem placeCommand_valid (s : State) (c : Word) : (placeCommand s c).valid = s.valid := rfl
@[simp] theorem placeCommand_rspValid (s : State) (c : Word) : (placeCommand s c).rspValid = s.rspValid := rfl
@[simp] theorem placeCommand_rspStatus (s : State) (c : Word) : (placeCommand s c).rspStatus = s.rspStatus := rfl
@[simp] theorem placeCommand_rspData (s : State) (c : Word) : (placeCommand s c).rspData = s.rspData := rfl
@[simp] theorem placeCommand_inputs (s : State) (c : Word) : (placeCommand s c).inputs = issue c :: s.inputs.tail := rfl

end Sys2Proof.Laws
end

