-- ==== Sys2Proof/Laws/Ops.lean ====
section
/-!
SUPPORT. What each shared operation can do, said once: inversion lemmas of `withBuffer`, `complete`, the meanings, `edge` and
`step`. Later proofs cite these instead of unfolding the operations.
-/

namespace Sys2Proof.Laws

open Sys2Proof.Machine

variable {s t : State} {k : Host.Outcome State Fault Refusal}

/-- `withBuffer` runs the command when VALID = 1. -/
@[simp] theorem withBuffer_valid (h : s.valid = true) : withBuffer s k = k := by
  simp only [withBuffer, h]

/-- `withBuffer` raises NO_BUFFER when VALID = 0 (R134). -/
@[simp] theorem withBuffer_invalid (h : s.valid = false) : withBuffer s k = .next (raise .noBuffer s) := by
  simp only [withBuffer, h]

/-- Everything `withBuffer` can do. -/
theorem withBuffer_next (h : withBuffer s k = .next t) :
    (s.valid = true ∧ k = .next t) ∨ (s.valid = false ∧ t = raise .noBuffer s) := by
  cases hv : s.valid with
  | true => exact .inl ⟨rfl, by rwa [withBuffer_valid hv] at h⟩
  | false =>
    rw [withBuffer_invalid hv] at h
    injection h with h
    exact .inr ⟨rfl, h.symm⟩

/-- Everything `complete` can do. -/
theorem complete_next {r : Except Status Word} (h : complete r s = .next t) :
    (∃ d, r = .ok d ∧ t = respond .ok d s) ∨ (∃ e, r = .error e ∧ t = raise e s) := by
  cases r with
  | ok d => injection h with h; exact .inl ⟨d, rfl, h.symm⟩
  | error e => injection h with h; exact .inr ⟨e, rfl, h.symm⟩

/-- COMBINE raises RANGE alone (R80). -/
theorem combineResult_error {i16 i32 : Int} {e : Status} (h : combineResult i16 i32 = .error e) : e = .range := by
  unfold combineResult at h
  split at h
  · cases h
  · injection h with h; exact h.symm

/-- This hardware never raises INFINITY (R137). -/
@[simp] theorem raisesInfinity_passthrough (e : BitVec 8) : raisesInfinity .passthrough e = false := by
  simp [raisesInfinity]

/-- TOSINGLE of this hardware raises UNDERFLOW alone, and for exponent byte 1 alone (R104). -/
theorem singleResult_error {sg : BitVec 1} {e : BitVec 8} {m : BitVec 23} {st : Status}
    (h : singleResult .passthrough sg e m = .error st) : st = .underflow ∧ e = 1#8 := by
  unfold singleResult at h
  split at h
  · cases h
  · split at h
    · injection h with h; exact ⟨h.symm, ‹_›⟩
    · simp at h

/-- TODOUBLE of this hardware raises nothing of its own (R106). -/
theorem doubleResult_no_error {sg : BitVec 1} {e : BitVec 8} {f : BitVec 52} {st : Status} :
    doubleResult .passthrough sg e f ≠ .error st := by
  unfold doubleResult
  split
  · simp
  · simp

/-- A command's response: an OK result, or an error of this hardware with data 0 (R68, R137). -/
def Answers (s t : State) : Prop :=
  (∃ d, t = respond .ok d s) ∨
  (∃ st, t = raise st s ∧ st ≠ .ok ∧ st ≠ .infinity)

/-- Everything a command can do: answer with the Decoder's registers as they were; or, LOAD, place a buffer; or, REVERSE,
rewrite the buffer. -/
theorem exec_cases {i : Instr} (h : exec i s = .next t) :
    Answers s t ∨
    (∃ v, i = .load 6 v ∧ t = respond .ok 0 (setValid (writeBuf v s))) ∨
    (i = .reverse ∧ s.valid = true ∧ t = respond .ok 0 (writeBuf (reverseBytes s.buf) s)) := by
  have keep : ∀ {d : Word}, withBuffer s (.next (respond .ok d s)) = .next t → Answers s t := by
    intro d hd
    obtain ⟨-, hk⟩ | ⟨-, rfl⟩ := withBuffer_next hd
    · injection hk with hk; exact .inl ⟨d, hk.symm⟩
    · exact .inr ⟨.noBuffer, rfl, by decide, by decide⟩
  have illegal : Host.Outcome.next (raise .illegal s) = (.next t : Host.Outcome State Fault Refusal) → Answers s t := by
    intro hr
    injection hr with hr
    exact .inr ⟨.illegal, hr.symm, by decide, by decide⟩
  cases i with
  | nop => injection h with h; exact .inl (.inl ⟨0, h.symm⟩)
  | combine i16 i32 =>
    obtain ⟨d, -, rfl⟩ | ⟨e, he, rfl⟩ := complete_next h
    · exact .inl (.inl ⟨d, rfl⟩)
    · obtain rfl := combineResult_error he
      exact .inl (.inr ⟨.range, rfl, by decide, by decide⟩)
  | load len data =>
    simp only [exec, execLoad] at h
    split at h
    · injection h with h; subst_vars; exact .inr (.inl ⟨data, rfl, rfl⟩)
    · injection h with h; exact .inl (.inr ⟨.length, h.symm, by decide, by decide⟩)
  | reverse =>
    obtain ⟨hv, hk⟩ | ⟨-, rfl⟩ := withBuffer_next h
    · injection hk with hk; exact .inr (.inr ⟨rfl, hv, hk.symm⟩)
    · exact .inl (.inr ⟨.noBuffer, rfl, by decide, by decide⟩)
  | toSingle =>
    obtain ⟨-, hk⟩ | ⟨-, rfl⟩ := withBuffer_next h
    · obtain ⟨d, -, rfl⟩ | ⟨e, he, rfl⟩ := complete_next hk
      · exact .inl (.inl ⟨d, rfl⟩)
      · obtain ⟨rfl, -⟩ := singleResult_error he
        exact .inl (.inr ⟨.underflow, rfl, by decide, by decide⟩)
    · exact .inl (.inr ⟨.noBuffer, rfl, by decide, by decide⟩)
  | toDouble =>
    obtain ⟨-, hk⟩ | ⟨-, rfl⟩ := withBuffer_next h
    · obtain ⟨d, -, rfl⟩ | ⟨e, he, rfl⟩ := complete_next hk
      · exact .inl (.inl ⟨d, rfl⟩)
      · exact absurd he doubleResult_no_error
    · exact .inl (.inr ⟨.noBuffer, rfl, by decide, by decide⟩)
  | value => exact .inl (keep h)
  | getSign => exact .inl (keep h)
  | getExp => exact .inl (keep h)
  | getBuf => exact .inl (keep h)
  | reservedA => exact .inl (illegal h)
  | reservedB => exact .inl (illegal h)
  | reservedC => exact .inl (illegal h)
  | reservedD => exact .inl (illegal h)
  | reservedE => exact .inl (illegal h)
  | reservedF => exact .inl (illegal h)

/-- A `withBuffer` over an answer answers. -/
theorem withBuffer_answers (hk : ∃ u, k = .next u) : ∃ u, withBuffer s k = .next u := by
  cases hv : s.valid with
  | true => rwa [withBuffer_valid hv]
  | false => exact ⟨_, withBuffer_invalid hv⟩

/-- `complete` always answers. -/
theorem complete_answers (r : Except Status Word) : ∃ u, complete r s = .next u := by
  cases r <;> exact ⟨_, rfl⟩

/-- Everything an edge can do (R29, R150). -/
theorem edge_cases {p : Pins} (h : edge p s = .next t) :
    (p.rst = true ∧ t = resetEdge s) ∨
    (p.rst = false ∧ p.cmdValid = true ∧ exec (decode p.cmdWord) s = .next t) ∨
    (p.rst = false ∧ p.cmdValid = false ∧ t = idleEdge s) := by
  obtain ⟨r, v, c⟩ := p
  cases r <;> cases v <;> simp_all [edge, accepted, cmdReady]

/-- Everything a step can do: the idle port past the end of the inputs, or one edge with the next inputs. -/
theorem step_cases (h : step s = .next t) :
    (s.inputs = [] ∧ t = idleEdge s) ∨
    (∃ p rest, s.inputs = p :: rest ∧ edge p { s with inputs := rest } = .next t) := by
  unfold step at h
  split at h
  · injection h with h; exact .inl ⟨‹_›, h.symm⟩
  · exact .inr ⟨_, _, ‹_›, h⟩

/-- A run goes on from the state of its first step. -/
theorem run_succ (k : Nat) (h : step s = .next t) : core.run (k + 1) s = core.run k t := by
  have general : ∀ (M : Host.Core) (a b : M.State), M.step a = .next b → M.run (k + 1) a = M.run k b := by
    intro M a b hab
    rw [Host.Core.run, hab]
  exact general core s t h

end Sys2Proof.Laws
end

