-- ==== Sys2Proof/Laws/PerInstr.lean ====
section
/-!
SUPPORT. The family EncodedOpcode: the opcode field of an encoded command is the one R65 gives it.
-/

namespace Sys2Proof.Laws

/-- OP of the encoded command is its opcode (R65). -/
def EncodedOpcode.Statement (i : Instr) : Prop := opField (encode i) = opcodeOf i

theorem EncodedOpcode.nop : EncodedOpcode.Statement .nop :=
  opField_commandWord _ _ _ _

theorem EncodedOpcode.combine (i16 i32 : Int) : EncodedOpcode.Statement (.combine i16 i32) :=
  opField_commandWord _ _ _ _

theorem EncodedOpcode.load (len : Nat) (data : Bytes6) : EncodedOpcode.Statement (.load len data) :=
  opField_commandWord _ _ _ _

theorem EncodedOpcode.reverse : EncodedOpcode.Statement .reverse :=
  opField_commandWord _ _ _ _

theorem EncodedOpcode.toSingle : EncodedOpcode.Statement .toSingle :=
  opField_commandWord _ _ _ _

theorem EncodedOpcode.toDouble : EncodedOpcode.Statement .toDouble :=
  opField_commandWord _ _ _ _

theorem EncodedOpcode.value : EncodedOpcode.Statement .value :=
  opField_commandWord _ _ _ _

theorem EncodedOpcode.getSign : EncodedOpcode.Statement .getSign :=
  opField_commandWord _ _ _ _

theorem EncodedOpcode.getExp : EncodedOpcode.Statement .getExp :=
  opField_commandWord _ _ _ _

theorem EncodedOpcode.getBuf : EncodedOpcode.Statement .getBuf :=
  opField_commandWord _ _ _ _

theorem EncodedOpcode.reservedA : EncodedOpcode.Statement .reservedA :=
  opField_commandWord _ _ _ _

theorem EncodedOpcode.reservedB : EncodedOpcode.Statement .reservedB :=
  opField_commandWord _ _ _ _

theorem EncodedOpcode.reservedC : EncodedOpcode.Statement .reservedC :=
  opField_commandWord _ _ _ _

theorem EncodedOpcode.reservedD : EncodedOpcode.Statement .reservedD :=
  opField_commandWord _ _ _ _

theorem EncodedOpcode.reservedE : EncodedOpcode.Statement .reservedE :=
  opField_commandWord _ _ _ _

theorem EncodedOpcode.reservedF : EncodedOpcode.Statement .reservedF :=
  opField_commandWord _ _ _ _

end Sys2Proof.Laws
end

