-- ==== Sys2Proof/Laws/Value.lean ====
section
/-!
SUPPORT. VALUE's arithmetic is exact (spec/42_decoder_conversions.md R109): each stage of R108 encodes the number it stands
for.
-/

namespace Sys2Proof.Laws

open Sys2Proof.Machine

/-- A value of at most 53 bits, given as an integer over a power of two, is zero or normal. -/
theorem normal_over {n k : Nat} (hn : n < 2 ^ 53) (hk : k ≤ 1022) : Normal ((n : ℚ) / 2 ^ k) := by
  have := normal_scaled (n := n) (e := -(k : ℤ)) hn (by omega) (by omega)
  rwa [zpow_neg, zpow_natCast, ← div_eq_mul_inv] at this

/-- One stage of R108: a byte value over an exact fraction of `k` bits gives an exact fraction of `k + 8` bits. -/
theorem valueStage_encodes {b t : Word} {x n k : Nat} (hb : Encodes b false x) (hx : x < 256)
    (ht : Encodes t false ((n : ℚ) / 2 ^ k)) (hn : n < 2 ^ k) (hk : k ≤ 32) :
    Encodes (valueStage b t) false (((x * 2 ^ k + n : ℕ) : ℚ) / 2 ^ (k + 8)) := by
  have hlt : x * 2 ^ k + n < 2 ^ 40 := by
    calc x * 2 ^ k + n < (x + 1) * 2 ^ k := by linarith
      _ ≤ 256 * 2 ^ 32 := Nat.mul_le_mul hx (Nat.pow_le_pow_right (by norm_num) hk)
      _ = 2 ^ 40 := by norm_num
  have hlt' : x * 2 ^ k + n < 2 ^ 53 := lt_trans hlt (by norm_num)
  have sum : (x : ℚ) + n / 2 ^ k = ((x * 2 ^ k + n : ℕ) : ℚ) / 2 ^ k := by
    push_cast; field_simp
  have hadd := fadd_encodes hb ht (by rw [sum]; exact normal_over hlt' (by omega))
  rw [sum] at hadd
  have quot : ((x * 2 ^ k + n : ℕ) : ℚ) / 2 ^ k / (256 : ℕ) = ((x * 2 ^ k + n : ℕ) : ℚ) / 2 ^ (k + 8) := by
    rw [pow_add, div_div]; norm_num
  have hdiv := fdiv_encodes hadd (f64OfNat_encodes (n := 256) (by norm_num)) (by norm_num)
    (by rw [quot]; exact normal_over hlt' (by omega))
  rwa [quot] at hdiv

/-- `f = M39 / 2^40` (R109). -/
theorem valueFraction_encodes (w : Bytes6) :
    Encodes (valueFraction w) false (((mant39 w).toNat : ℚ) / 2 ^ 40) := by
  have byte : ∀ i, (byteOf w i).toNat < 256 := fun i => (byteOf w i).isLt
  have enc : ∀ {n : Nat}, n < 256 → Encodes (f64OfNat n) false (n : ℚ) := fun h =>
    f64OfNat_encodes (lt_trans h (by norm_num))
  have h4 : Encodes (fdiv (f64OfByte (byteOf w 4)) (f64OfNat 256)) false (((byteOf w 4).toNat : ℚ) / 2 ^ 8) := by
    have := fdiv_encodes (enc (byte 4)) (f64OfNat_encodes (n := 256) (by norm_num)) (by norm_num)
      (by
        have := normal_over (n := (byteOf w 4).toNat) (k := 8) (lt_trans (byte 4) (by norm_num)) (by norm_num)
        norm_num at this ⊢; exact this)
    norm_num at this ⊢; exact this
  have h3 := valueStage_encodes (enc (byte 3)) (byte 3) h4 (byte 4) (by norm_num)
  have h2 := valueStage_encodes (enc (byte 2)) (byte 2) h3
    (by have := byte 3; have := byte 4; norm_num; omega) (by norm_num)
  have h1 := valueStage_encodes (enc (byte 1)) (byte 1) h2
    (by have := byte 2; have := byte 3; have := byte 4; norm_num; omega) (by norm_num)
  have low : (byteOf w 0).toNat % 128 < 256 := by omega
  have h0 := valueStage_encodes (enc low) low h1
    (by have := byte 1; have := byte 2; have := byte 3; have := byte 4; norm_num; omega) (by norm_num)
  have num : (byteOf w 0).toNat % 128 * 2 ^ 32 + ((byteOf w 1).toNat * 2 ^ 24 + ((byteOf w 2).toNat * 2 ^ 16 +
      ((byteOf w 3).toNat * 2 ^ 8 + (byteOf w 4).toNat))) = (mant39 w).toNat := by
    rw [mant39_toNat]
    simp only [byteOf_toNat]
    omega
  rw [← num]
  exact h0

/-- `m = 1 + M39 / 2^39` for an exponent byte other than 0 (R109). -/
theorem valueMagnitude_encodes {w : Bytes6} (h : byteOf w 5 ≠ 0#8) :
    Encodes (valueMagnitude w) false (((2 ^ 39 + (mant39 w).toNat : ℕ) : ℚ) / 2 ^ 39) := by
  have hM : (mant39 w).toNat < 2 ^ 39 := (mant39 w).isLt
  have twice : ((2 : ℕ) : ℚ) * (((mant39 w).toNat : ℚ) / 2 ^ 40) = ((mant39 w).toNat : ℚ) / 2 ^ 39 := by
    push_cast; ring
  have hmul := fmul_encodes (f64OfNat_encodes (n := 2) (by norm_num)) (valueFraction_encodes w)
    (by rw [twice]; exact normal_over (by omega) (by norm_num))
  rw [twice] at hmul
  have sum : ((1 : ℕ) : ℚ) + ((mant39 w).toNat : ℚ) / 2 ^ 39 = ((2 ^ 39 + (mant39 w).toNat : ℕ) : ℚ) / 2 ^ 39 := by
    push_cast; field_simp; norm_num
  have hadd := fadd_encodes (f64OfNat_encodes (n := 1) (by norm_num)) hmul
    (by rw [sum]; exact normal_over (by omega) (by norm_num))
  rw [sum] at hadd
  unfold valueMagnitude
  rwa [if_neg h]

end Sys2Proof.Laws
end

