-- ==== Sys2Proof/Tests/Slice0.lean ====
section
/-!
SUPPORT. The model's own tests: ill-formed commands, the spec's own words and vectors (spec/30_encoding.md R71,
spec/95_test_vectors.md), and a witness for the hypotheses of every statement that has some.
-/

namespace Sys2Proof.Tests

open Sys2Proof.Machine Sys2Proof.Safety

/-- A state right after a LOAD of `b`. -/
def loaded (b : Bytes6) : State :=
  { State.reset with buf := b, sign := b.extractLsb' 47 1, exp := b.extractLsb' 0 8, valid := true }

/-- The next state of an outcome. -/
def nextOf : Host.Outcome State Fault Refusal → Option State
  | .next s => some s
  | .fault _ => none
  | .refused _ => none

/-- The response of an outcome's next state: status and data. -/
def responseOf (o : Host.Outcome State Fault Refusal) : Option (BitVec 3 × Word) := (nextOf o).map response

/-- The Decoder's registers of an outcome's next state: BUF, SIGN, EXP, VALID. -/
def decoderOf (o : Host.Outcome State Fault Refusal) : Option (Bytes6 × BitVec 1 × BitVec 8 × Bool) :=
  (nextOf o).map fun s => (s.buf, s.sign, s.exp, s.valid)

/-! ## WellFormed: an ill-formed term for each check -/

theorem test_combine_i16_below : Instr.wellFormed (.combine (-32769) 0) = false := by decide
theorem test_combine_i16_above : Instr.wellFormed (.combine 32768 0) = false := by decide
theorem test_combine_i32_below : Instr.wellFormed (.combine 0 (-2147483649)) = false := by decide
theorem test_combine_i32_above : Instr.wellFormed (.combine 0 2147483648) = false := by decide
theorem test_load_len_above : Instr.wellFormed (.load 16 0) = false := by decide
theorem test_edges_well_formed :
    Instr.wellFormed (.combine (-32768) (-2147483648)) = true ∧ Instr.wellFormed (.combine 32767 2147483647) = true ∧
    Instr.wellFormed (.load 15 0) = true ∧ Instr.wellFormed (.load 0 0) = true := by decide

/-! ## Decoding: a word of every constructor, written out from R60 and R65 (OP LEN RSVD DATA) -/

theorem test_decode_nop : decode 0x0FFFFFFFFFFFFFFF = .nop := by decide
/-- COMBINE -2, 1: I16 = FFFE, I32 = 00000001 (T-CMB-5), with LEN and RSVD set, which it ignores. -/
theorem test_decode_combine : decode 0x1A55FFFE00000001 = .combine (-2) 1 := by decide
/-- LEN = 7, RSVD = FF, bytes 12 34 56 78 9A BC. -/
theorem test_decode_load : decode 0x27FF123456789ABC = .load 7 0x123456789ABC := by decide
theorem test_decode_reverse : decode 0x3000000000000000 = .reverse := by decide
theorem test_decode_toSingle : decode 0x4FFFFFFFFFFFFFFF = .toSingle := by decide
theorem test_decode_toDouble : decode 0x5000000000000000 = .toDouble := by decide
theorem test_decode_value : decode 0x6000000000000000 = .value := by decide
theorem test_decode_getSign : decode 0x7000000000000000 = .getSign := by decide
theorem test_decode_getExp : decode 0x8000000000000000 = .getExp := by decide
theorem test_decode_getBuf : decode 0x9000000000000000 = .getBuf := by decide
theorem test_decode_reservedA : decode 0xA000000000000000 = .reservedA := by decide
theorem test_decode_reservedB : decode 0xB500000000000000 = .reservedB := by decide
theorem test_decode_reservedC : decode 0xC000000000000000 = .reservedC := by decide
theorem test_decode_reservedD : decode 0xD000000000000000 = .reservedD := by decide
theorem test_decode_reservedE : decode 0xE000000000000000 = .reservedE := by decide
theorem test_decode_reservedF : decode 0xFFFFFFFFFFFFFFFF = .reservedF := by decide
theorem test_encode_combine : encode (.combine 1000 123456) = 0x100003E80001E240 := by decide
theorem test_encode_load : encode (.load 5 0x000000000081) = 0x2500000000000081 := by decide

/-! ## The commands: the vectors of spec/95_test_vectors.md -/

theorem test_nop : responseOf (exec .nop State.reset) = some (0, 0) := by decide
/-- T-CMB-7: the asymmetric lower bound is accepted. -/
theorem test_combine_low : responseOf (exec (.combine (-32767) (-2147483648)) State.reset) =
    some (0, 0x0000800000008001) := by decide
/-- T-CMB-9. -/
theorem test_combine_range : responseOf (exec (.combine (-32768) 123456) State.reset) = some (1, 0) := by decide
/-- T-BUF-14: a LOAD replaces the buffer. -/
theorem test_load : decoderOf (exec (.load 6 0x800000000000) (loaded 0x000000000081)) =
    some (0x800000000000, 1, 0, true) := by decide
/-- T-BUF-4: a failed LOAD changes nothing. -/
theorem test_load_length : decoderOf (exec (.load 7 0xFFFFFFFFFFFF) (loaded 0x000000000081)) =
    some (0x000000000081, 0, 0x81, true) := by decide
/-- T-BUF-8. -/
theorem test_reverse : decoderOf (exec .reverse (loaded 0x0001E24003E8)) = some (0xE80340E20100, 1, 0, true) := by decide
/-- T-BUF-7. -/
theorem test_getSign : responseOf (exec .getSign (loaded 0x800000000081)) = some (0, 1) := by decide
/-- T-BUF-7. -/
theorem test_getExp : responseOf (exec .getExp (loaded 0x800000000081)) = some (0, 0x81) := by decide
/-- P2 step 7. -/
theorem test_getBuf : responseOf (exec .getBuf (loaded 0xE80340E20100)) = some (0, 0x0000E80340E20100) := by decide
/-- T-CNV-16: TOSINGLE truncates. -/
theorem test_toSingle : responseOf (exec .toSingle (loaded 0x490FDAA22182)) = some (0, 0x40490FDA) := by decide
/-- T-PRI-3: UNDERFLOW for exponent byte 1. -/
theorem test_toSingle_underflow : responseOf (exec .toSingle (loaded 0x000000000001)) = some (4, 0) := by decide
/-- T-CNV-24. -/
theorem test_toDouble : responseOf (exec .toDouble (loaded 0x0001E24003E8)) = some (0, 0x4660003C48006000) := by decide
/-- T-CNV-23: exponent byte 255 and every bit set. -/
theorem test_toDouble_255 : responseOf (exec .toDouble (loaded 0xFFFFFFFFFFFF)) = some (0, 0xC7DFFFFFFFFFE000) := by
  decide
/-- T-CNV-17. -/
theorem test_value : responseOf (exec .value (loaded 0x4CCCCCCCCD7D)) = some (0, 0x3FB999999999A000) := by decide +kernel
/-- T-CNV-5: the zero keeps its sign. -/
theorem test_value_zero : responseOf (exec .value (loaded 0xFFFFFFFFFF00)) = some (0, 0x8000000000000000) := by
  decide +kernel
/-- The alternative P_VALUE_ZERO_SIGN = POSITIVE of R108. -/
theorem test_value_zero_positive : valueResult .positive 0xFFFFFFFFFF00 = 0 := by decide +kernel
/-- T-PRI-2: ILLEGAL comes before every other condition. -/
theorem test_reserved : responseOf (exec (decode 0xB500000000000000) State.reset) = some (5, 0) := by decide
/-- T-BUF-13. -/
theorem test_no_buffer : responseOf (exec .toDouble State.reset) = some (3, 0) := by decide

/-! ## IEEE-754 arithmetic against hand calculation -/

/-- 1 + 2^-53 is a tie and goes to the even 1.0; 1 + 3 × 2^-53 is a tie and goes to the even 1 + 2^-51. -/
theorem test_fadd_ties : fadd 0x3FF0000000000000 0x3CA0000000000000 = 0x3FF0000000000000 ∧
    fadd 0x3FF0000000000001 0x3CA0000000000000 = 0x3FF0000000000002 := by decide +kernel
/-- The largest finite number doubled overflows to infinity; the smallest subnormal halved is a tie and goes to zero. -/
theorem test_fmul_limits : fmul 0x7FEFFFFFFFFFFFFF 0x4000000000000000 = 0x7FF0000000000000 ∧
    fmul 0x0000000000000001 0x3FE0000000000000 = 0 := by decide +kernel
/-- 1 / 3 rounds down, -1 / 0 is minus infinity. -/
theorem test_fdiv : fdiv 0x3FF0000000000000 0x4008000000000000 = 0x3FD5555555555555 ∧
    fdiv 0xBFF0000000000000 0 = 0xFFF0000000000000 := by decide +kernel

/-! ## The clock edge -/

/-- T-RST-2: the edge after the LOAD clears RSP_VALID and VALID. -/
theorem test_reset_edge : (nextOf (step { loaded 0x000000000081 with inputs := [⟨true, true, 0⟩] })).map
    (fun s => (s.valid, s.rspValid)) = some (false, false) := by decide
/-- R29: without a command the response is withdrawn and its data kept. -/
theorem test_idle_edge : (nextOf (step { loaded 0 with rspValid := true, rspData := 7 })).map
    (fun s => (s.rspValid, s.rspData)) = some (false, 7) := by decide
/-- A command placed at reset is the first to run. -/
theorem test_first_command : decoderOf (step (State.reset.withFetchWord 64 0x2600000000000081)) =
    some (0x000000000081, 0, 0x81, true) := by decide

/-! ## Assembler text -/

/-- `combine -32768, 0x0 ;c` (R69, R71). -/
theorem test_asm_combine : assembleText
    ['c', 'o', 'm', 'b', 'i', 'n', 'e', ' ', '-', '3', '2', '7', '6', '8', ',', ' ', '0', 'x', '0', ' ', ';', 'c'] =
    some [0x1000800000000000] := by decide
/-- `LOAD.L5 0x00,0x00,0x00,0x00,0x00,0x81` (R71). -/
theorem test_asm_load : assembleText
    ['L', 'O', 'A', 'D', '.', 'L', '5', ' ', '0', 'x', '0', '0', ',', '0', 'x', '0', '0', ',', '0', 'x', '0', '0', ',',
     '0', 'x', '0', '0', ',', '0', 'x', '0', '0', ',', '0', 'x', '8', '1'] = some [0x2500000000000081] := by decide
/-- `LOADPAIR 1000, 123456` assembles to P2 step 2's word; -32768 is refused (R70). -/
theorem test_asm_loadpair : assemble (.loadPair 1000 123456) = some [0x26000001E24003E8] ∧
    assemble (.loadPairRev (-32768) 0) = none := by decide

/-- `.word 0xF000000000000000` (R69, and the example of spec/43_control.md R121); LOAD without its operands is no form. -/
theorem test_asm_word : assembleText
    ['.', 'w', 'o', 'r', 'd', ' ', '0', 'x', 'F', '0', '0', '0', '0', '0', '0', '0', '0', '0', '0', '0', '0', '0', '0', '0'] =
    some [0xF000000000000000] ∧ assembleText ['L', 'O', 'A', 'D'] = none := by decide

/-! ## Witnesses: states and operands that meet the hypotheses of the statements -/

/-- DecodeEncodeRoundTrip, StatusOfEveryCommand: well-formed commands of the two operand forms at their edges. -/
theorem witness_well_formed : Instr.wellFormed (.combine (-32768) 2147483647) = true ∧
    Instr.wellFormed (.load 15 0xFFFFFFFFFFFF) = true ∧ Instr.wellFormed .reservedF = true := by decide
/-- DataFieldReading and CombinePacksItsWord: words of OP 1 with I16 = 0x8000 and not, of OP 2, and two of another OP. -/
theorem witness_opcode_fields :
    (0x1000800000000000 : Word).extractLsb' 60 4 = 0x1#4 ∧ (0x1000800000000000 : Word).extractLsb' 32 16 = 0x8000#16 ∧
    (0x1000800180000000 : Word).extractLsb' 60 4 = 0x1#4 ∧ (0x1000800180000000 : Word).extractLsb' 32 16 ≠ 0x8000#16 ∧
    (0x2600000000000081 : Word).extractLsb' 60 4 = 0x2#4 ∧
    (0x4FFFFFFFFFFFFFFF : Word).extractLsb' 60 4 = (0x4000000000000000 : Word).extractLsb' 60 4 ∧
    (0x4FFFFFFFFFFFFFFF : Word).extractLsb' 60 4 ≠ 0x1#4 ∧ (0x4FFFFFFFFFFFFFFF : Word).extractLsb' 60 4 ≠ 0x2#4 := by
  decide
/-- ReservedFieldIsIgnored: two words that differ in RSVD alone (T-BUF-6). -/
theorem witness_rsvd :
    (0x26FF000000000081 : Word).extractLsb' 56 8 = (0x2600000000000081 : Word).extractLsb' 56 8 ∧
    (0x26FF000000000081 : Word).extractLsb' 0 48 = (0x2600000000000081 : Word).extractLsb' 0 48 := by decide
/-- StepRunsTheDecodedCommand, ResponseRegistersAtEachEdge, ResetEdgeClearsValidAndResponse, CommandJustBeforeReset,
ValidWrittenByLoadAndReset, NothingPersistsAcrossReset: states whose inputs have each form. -/
theorem witness_inputs :
    (State.reset.withFetchWord 64 0).inputs = ⟨false, true, 0⟩ :: [] ∧
    ({ State.reset with inputs := [⟨false, false, 0⟩] } : State).inputs = ⟨false, false, 0⟩ :: [] ∧
    ({ loaded 5 with inputs := [⟨true, true, 0⟩] } : State).inputs = ⟨true, true, 0⟩ :: [] ∧
    ({ State.reset with inputs := [⟨false, true, 0⟩, ⟨true, false, 0⟩] } : State).inputs =
      ⟨false, true, 0⟩ :: ⟨true, false, 0⟩ :: [] := by decide
/-- ValidWrittenByLoadAndReset: a successful LOAD, and a LOAD that fails. -/
theorem witness_load_word : decode 0x2600000000000081 = .load 6 0x000000000081 ∧ decode 0x2500000000000081 ≠ .load 6 0x81 ∧
    (nextOf (step (State.reset.withFetchWord 64 0x2600000000000081))).map State.valid = some true := by decide
/-- The coherent, valid states the conversion statements start from, at exponent bytes 0, 1, 2, 3, 129 and 255 and with both
signs (ReverseIsAnInvolution, DecoderReadsRespond, ToSingle..., ToDouble..., ZeroLaw, SignLaw, Exponent255PassesThrough). -/
theorem witness_coherent (b : Bytes6) : (loaded b).valid = true ∧ CacheCoherent (loaded b) := ⟨rfl, fun _ => ⟨rfl, rfl⟩⟩
theorem witness_exponents :
    (loaded 0x800000000000).exp = 0#8 ∧ (loaded 0x800000000001).exp = 1#8 ∧ (loaded 0x7FFFFF000002).exp = 2#8 ∧
    3 ≤ (loaded 0x000000000003).exp.toNat ∧ 3 ≤ (loaded 0x0000000000FF).exp.toNat ∧ (loaded 0x0000000000FF).exp = 255#8 ∧
    (loaded 0x800000000000).sign = 1#1 ∧ (loaded 0x000000000000).sign = 0#1 ∧
    byteOf (loaded 0x800000000000).buf 5 = 0#8 ∧ byteOf (loaded 0x000000000081).buf 5 ≠ 0#8 := by decide
/-- SignLaw: the state with `B[0][7]` flipped is the loaded one of the flipped buffer. -/
theorem witness_sign_flip : loaded 0x800000000081 =
    { loaded 0x000000000081 with
      buf := 0x000000000081 ^^^ 0x800000000000#48, sign := (loaded 0x000000000081).sign ^^^ 1#1 } := by decide
/-- NoBufferWithoutLoad and the VALID = 0 clauses. -/
theorem witness_no_buffer : State.reset.valid = false := rfl
/-- InvariantKeptByEveryStep and CachedFieldsNeverStale: a state that meets the invariant with VALID = 1, and its step. -/
theorem witness_inv : Inv { loaded 0x0001E24003E8 with inputs := [⟨false, true, 0x3000000000000000⟩] } ∧
    decoderOf (step { loaded 0x0001E24003E8 with inputs := [⟨false, true, 0x3000000000000000⟩] }) =
      some (0xE80340E20100, 1, 0, true) := ⟨⟨fun _ => ⟨rfl, rfl⟩, by decide, fun _ => rfl⟩, by decide⟩
/-- StaleBufferIsUnobservable: two indistinguishable states that hold different buffers. -/
theorem witness_indistinguishable : Indistinguishable State.reset { State.reset with buf := 0xFFFFFFFFFFFF, exp := 1 } :=
  ⟨rfl, rfl, rfl, rfl, rfl, by decide⟩
/-- OnlyLoadAndReverseWriteTheDecoder: a command that is neither, and its next state. -/
theorem witness_frame : (∀ data, Instr.load 5 0 ≠ .load 6 data) ∧ Instr.load 5 0 ≠ .reverse ∧
    decoderOf (exec (.load 5 0) (loaded 0x81)) = some (0x81, 0, 0x81, true) := by
  refine ⟨fun _ => by simp, by decide, by decide⟩
/-- ErrorsChangeNothingElse: an error. -/
theorem witness_error : (nextOf (exec .reservedA State.reset)).map (fun t => t.rspStatus != 0#3) = some true := by decide
/-- The integer ranges (CombineResultIsBigEndian, RangeCheckForAllIntegers, PseudoInstructionsExpand, AssemblerFormsDecode), at
their edges, and outside them. -/
theorem witness_ranges : (-32767 ≤ (-32767 : Int) ∧ (-32767 : Int) ≤ 32767 ∧ -2147483648 ≤ (-2147483648 : Int)) ∧
    combineCommand (-32768) 2147483647 = some (.combine (-32768) 2147483647) ∧ combineCommand 32768 0 = none ∧
    combineCommand 0 2147483648 = none ∧ assemble (.combine (-32769) 0) = none ∧
    assemble (.loadLen 16 0 0 0 0 0 0) = none ∧ (assemble (.loadLen 15 0 0 0 0 0 0)).isSome = true := by decide
/-- LoadAcceptsSixBytesOnly: lengths 5, 6 and 7, and the saturated length. -/
theorem witness_lengths : responseOf (exec (fromBytesCommand [0, 0, 0, 0, 0, 0x81] 0) State.reset) = some (0, 0) ∧
    responseOf (exec (fromBytesCommand [0, 0, 0, 0, 0] 0) State.reset) = some (2, 0) ∧
    responseOf (exec (fromBytesCommand [0, 0, 0, 0, 0, 0, 0] 0) State.reset) = some (2, 0) ∧
    lenFor 14 = 14 ∧ lenFor 15 = 15 ∧ lenFor 22 = 15 := by decide
/-- PowersOfTwoAndNegation: the ends of the range (R10's layout). -/
theorem witness_pow2 : pow2 (-1022) = 0x0010000000000000 ∧ pow2 1023 = 0x7FE0000000000000 ∧ pow2 0 = 0x3FF0000000000000 ∧
    fneg 0x3FF0000000000000 = 0xBFF0000000000000 := by decide +kernel
/-- ArithmeticRoundsToNearestEven: finite operands, a divisor other than 0, and finite results of each operation, rounded
ones among them (1/3, and the tie 1 + 2^-53). -/
theorem witness_finite : (asF64 0x3FF0000000000000).isSome = true ∧ (asF64 0x4008000000000000).isSome = true ∧
    asF64 0x4008000000000000 ≠ some 0 ∧ (asF64 (fdiv 0x3FF0000000000000 0x4008000000000000)).isSome = true ∧
    (asF64 (fadd 0x3FF0000000000000 0x3CA0000000000000)).isSome = true ∧
    (asF64 (fmul 0x3FF0000000000001 0x4008000000000000)).isSome = true := by decide +kernel
/-- ArithmeticRoundsToNearestEven, the limit of the finite results: the largest finite number plus 2^970 is the limit itself and
is no finite number, and plus the number before 2^970 it lies below and is finite. -/
theorem witness_limit :
    (asF64 0x7FEFFFFFFFFFFFFF).isSome = true ∧ asF64 (fadd 0x7FEFFFFFFFFFFFFF 0x7C90000000000000) = none ∧
    fadd 0x7FEFFFFFFFFFFFFF 0x7C8FFFFFFFFFFFFF = 0x7FEFFFFFFFFFFFFF := by decide +kernel
/-- AssemblerTextCaseAndComments: texts of lines, in decimal and in hex with leading zeros, with and without a space after the
comma, and without operands (R71's COMBINE 1000, 123456 and LOAD.L5). -/
theorem witness_line_text :
    LineText (.combine 1000 123456)
      ['C', 'O', 'M', 'B', 'I', 'N', 'E', ' ', '1', '0', '0', '0', ',', ' ', '1', '2', '3', '4', '5', '6'] ∧
    LineText (.combine (-32768) 0) ['C', 'O', 'M', 'B', 'I', 'N', 'E', ' ', '-', '0', 'x', '8', '0', '0', '0', ',', '0'] ∧
    LineText (.loadLen 5 0 0 0 0 0 0x81)
      (['L', 'O', 'A', 'D', '.', 'L', '5', ' '] ++ ['0', 'x', '0', '0', ','] ++ ['0', 'x', '0', '0', ','] ++
        ['0', 'x', '0', '0', ','] ++ ['0', 'x', '0', '0', ','] ++ ['0', 'x', '0', '0', ','] ++ ['0', 'x', '8', '1']) ∧
    LineText (.word 0xF) ['.', 'W', 'O', 'R', 'D', ' ', '0', 'x', '0', 'f'] ∧ LineText .nop ['N', 'O', 'P'] := by
  have zero : HexText (0 : Byte).toNat ['0', 'x', '0', '0'] := ⟨1, by decide⟩
  refine ⟨⟨1, _, _, ⟨_, .inl rfl, rfl⟩, ⟨_, .inl rfl, rfl⟩, by decide⟩,
    ⟨0, _, _, ⟨_, .inr ⟨0, rfl⟩, rfl⟩, ⟨_, .inl rfl, rfl⟩, by decide⟩,
    ⟨0, _, .cons zero (.cons zero (.cons zero (.cons zero (.cons zero (.cons ⟨0, rfl⟩ .nil))))), by decide⟩,
    ⟨_, ⟨1, rfl⟩, by decide⟩, rfl⟩

/-- InstancesAreIndependent: instance 1 of two. -/
theorem witness_instances : [State.reset, loaded 0x81][1]? = some (loaded 0x81) := by decide

end Sys2Proof.Tests
end

section
/-!
SUPPORT. Proofs of the statements about the bytes of a 48-bit value and about binary64 arithmetic (spec/00_scope.md R8, R10,
R11).
-/

namespace Sys2Proof.Proofs

open Sys2Proof.Machine Sys2Proof.Laws

/-! ## Bytes -/

/-- Bit `j` of byte `i` is bit `40 - 8i + j` of the word (R8). -/
theorem byteOf_getLsbD (w : Bytes6) (i : Nat) {j : Nat} (hj : j < 8) :
    (byteOf w i).getLsbD j = w.getLsbD (40 - 8 * i + j) := by
  simp [byteOf, hj]

/-- The six bytes of a word, joined, are the word (R8). -/
theorem ofBytes_byteOf (w : Bytes6) :
    ofBytes (byteOf w 0) (byteOf w 1) (byteOf w 2) (byteOf w 3) (byteOf w 4) (byteOf w 5) = w := by
  have hw := w.isLt
  apply BitVec.eq_of_toNat_eq
  rw [ofBytes_toNat]
  simp only [byteOf_toNat]
  omega

/-- Settles O8: each byte is a slice of the word, so the joined bytes have the word's number. -/
theorem bytesMakeTheWord : Obligations.BytesMakeTheWord :=
  ⟨ofBytes_byteOf, fun w i _ _ hj => byteOf_getLsbD w i hj, fun w => byteOf_getLsbD w 0 (by decide)⟩

/-! ## Powers of two and negation -/

/-- The factor a sign bit puts before a magnitude. -/
def signOfBool (s : Bool) : ℚ := if s then -1 else 1

/-- The value of a normal binary64 number (R10). -/
theorem asF64_f64Normal (s : Bool) {m : Nat} {q : Int} (hm : 2 ^ 52 ≤ m) (hm' : m < 2 ^ 53)
    (hq : -1074 ≤ q) (hq' : q ≤ 971) : asF64 (f64Normal s m q) = some (signOfBool s * m * 2 ^ q) := by
  rw [asF64, f64Class_normal s hm hm' hq hq']
  rfl

/-- In the range R11 gives it, `pow2 k` is the normal number with the significand `2^52` and the last place `2^(k-52)`. -/
theorem pow2_eq_f64Normal {k : Int} (hk : -1022 ≤ k) (hk' : k ≤ 1023) :
    pow2 k = f64Normal false (2 ^ 52) (k - 52) := by
  refine f64Round_exact false one_pos one_pos le_rfl (by norm_num) (by omega) (by omega) ?_
  rw [zpow_sub₀ two_ne_zero]
  norm_num
  ring

/-- `pow2 k` is exact in the range R11 gives it. -/
theorem asF64_pow2 {k : Int} (hk : -1022 ≤ k) (hk' : k ≤ 1023) : asF64 (pow2 k) = some (2 ^ k) := by
  rw [pow2_eq_f64Normal hk hk', asF64_f64Normal false le_rfl (by norm_num) (by omega) (by omega)]
  rw [zpow_sub₀ two_ne_zero]
  norm_num [signOfBool]
  ring

/-- `fneg` complements bit 63 and keeps every other bit (R11). -/
theorem fneg_eq_append (p : Word) : fneg p = (~~~ (p.extractLsb' 63 1)) ++ p.extractLsb' 0 63 := by
  have mask : (0x8000000000000000 : Word) = BitVec.twoPow 64 63 := by decide
  apply BitVec.eq_of_getLsbD_eq
  intro i hi
  simp only [fneg, mask, BitVec.getLsbD_xor, BitVec.getLsbD_twoPow, BitVec.getLsbD_append, BitVec.getLsbD_not,
    BitVec.getLsbD_extractLsb']
  rcases Nat.lt_or_ge i 63 with h | h
  · simp [h, h.ne']
  · obtain rfl : i = 63 := by omega
    simp

/-- Settles O49: in its range `pow2` rounds nothing, and negation is one bit complemented. -/
theorem powersOfTwoAndNegation : Obligations.PowersOfTwoAndNegation :=
  ⟨fun _ hk hk' => asF64_pow2 hk hk', fneg_eq_append⟩

/-! ## Rounding to nearest, ties to even -/

/-- `r` is the binary64 rounding of the exact number `z`: finite exactly where `z` lies below the limit, and then no finite
binary64 number is nearer to `z`, nor another one as near unless the last bit of `r` is 0. -/
def RoundsTo (r : Word) (z : ℚ) : Prop :=
  (|z| < (2 ^ 53 - 1 / 2) * 2 ^ 971 ↔ ∃ v, asF64 r = some v) ∧
  ∀ v : ℚ, asF64 r = some v → ∀ (p : Word) (w : ℚ), asF64 p = some w →
    |v - z| ≤ |w - z| ∧ (w ≠ v → |w - z| = |v - z| → r.getLsbD 0 = false)

/-- A sign factor is its own inverse. -/
@[simp] theorem signOfBool_mul_self (s : Bool) : signOfBool s * signOfBool s = 1 := by
  cases s <;> norm_num [signOfBool]

/-- A sign factor changes no magnitude. -/
@[simp] theorem abs_signOfBool (s : Bool) : |signOfBool s| = 1 := by
  cases s <;> norm_num [signOfBool]

/-- The sign of a product or quotient (R11). -/
theorem signOfBool_xor (s t : Bool) : signOfBool (s ^^ t) = signOfBool s * signOfBool t := by
  cases s <;> cases t <;> norm_num [signOfBool]

/-- The distance of two numbers given by one sign and one last place is the distance of their significands, scaled. -/
theorem abs_sub_scaled (s : Bool) (u y : ℚ) (q : ℤ) :
    |signOfBool s * (u * 2 ^ q) - signOfBool s * (y * 2 ^ q)| = |u - y| * 2 ^ q := by
  rw [← mul_sub, ← sub_mul, abs_mul, abs_mul, abs_signOfBool, one_mul,
    abs_of_pos (zpow_pos (two_pos (α := ℚ)) q)]

/-- In units of a last place `2^q`, a finite binary64 number is an integer or lies below `2^52`; at the smallest last place it
is an integer (R10). -/
theorem asF64_eq_scaled {p : Word} {w : ℚ} (h : asF64 p = some w) (s : Bool) (q : ℤ) :
    ∃ u : ℚ, w = signOfBool s * (u * 2 ^ q) ∧ ((∃ k : ℤ, u = k) ∨ (u < 2 ^ 52 ∧ q ≠ -1074)) := by
  obtain ⟨t, m, e, -, rfl, hm, he⟩ := asF64_finite h
  refine ⟨signOfBool s * signOfBool t * m * 2 ^ (e - q), ?_, ?_⟩
  · have hpow : (2 : ℚ) ^ (e - q) * 2 ^ q = 2 ^ e := by rw [← zpow_add₀ two_ne_zero, sub_add_cancel]
    calc signOfBool t * m * 2 ^ e
        = (signOfBool s * signOfBool s) * (signOfBool t * m * (2 ^ (e - q) * 2 ^ q)) := by
          rw [signOfBool_mul_self, hpow, one_mul]
      _ = _ := by ring
  · rcases le_or_gt q e with hqe | heq
    · left
      refine ⟨(if s then -1 else 1) * (if t then -1 else 1) * m * 2 ^ (e - q).toNat, ?_⟩
      have hpow : (2 : ℚ) ^ (e - q) = 2 ^ (e - q).toNat := by
        rw [← zpow_natCast, Int.toNat_of_nonneg (by omega)]
      rw [hpow]
      push_cast [signOfBool]
      rfl
    · right
      refine ⟨?_, by omega⟩
      have hm' : (m : ℚ) < 2 ^ 53 := by exact_mod_cast hm
      calc signOfBool s * signOfBool t * m * 2 ^ (e - q)
          ≤ 1 * m * 2 ^ (-1 : ℤ) := by
            gcongr
            · calc signOfBool s * signOfBool t ≤ |signOfBool s * signOfBool t| := le_abs_self _
                _ = 1 := by rw [abs_mul, abs_signOfBool, abs_signOfBool, one_mul]
            · norm_num
            · omega
        _ < 2 ^ 52 := by norm_num; linarith

/-- An integer at distance at most 1/2 from `y` is a nearest integer, and another is as near only at distance 1/2. -/
theorem nearest_int {m k : ℤ} {y : ℚ} (h : |(m : ℚ) - y| ≤ 1 / 2) :
    |(m : ℚ) - y| ≤ |(k : ℚ) - y| ∧ (k ≠ m → |(k : ℚ) - y| = |(m : ℚ) - y| → |(m : ℚ) - y| = 1 / 2) := by
  rcases eq_or_ne k m with rfl | hne
  · exact ⟨le_rfl, fun h => absurd rfl h⟩
  · have apart : (1 : ℚ) ≤ |(k : ℚ) - y| + |(m : ℚ) - y| := by
      calc (1 : ℚ) ≤ |((k - m : ℤ) : ℚ)| := by exact_mod_cast Int.one_le_abs (sub_ne_zero.2 hne)
        _ = |((k : ℚ) - y) - ((m : ℚ) - y)| := by push_cast; congr 1; ring
        _ ≤ _ := abs_sub _ _
    exact ⟨by linarith, fun _ heq => by linarith⟩

/-- A nearest integer `m` of a `y` from `2^52` on is nearer than any number below `2^52`. -/
theorem nearest_below {m : ℤ} {y u : ℚ} (h : |(m : ℚ) - y| ≤ 1 / 2) (hy : 2 ^ 52 ≤ y) (hu : u < 2 ^ 52) :
    |(m : ℚ) - y| < |u - y| := by
  calc |(m : ℚ) - y| ≤ |((2 ^ 52 : ℤ) : ℚ) - y| := (nearest_int h).1
    _ = y - 2 ^ 52 := by
      push_cast
      rw [abs_sub_comm, abs_of_nonneg (by linarith)]
      norm_num
    _ < y - u := by linarith
    _ ≤ |u - y| := by rw [abs_sub_comm]; exact le_abs_self _

/-- Among the significands a binary64 number can have in units of `m`'s last place, `m` is a nearest one, and another is as near
only at distance 1/2. -/
theorem nearest_significand {m : ℕ} {y u : ℚ} (h : |(m : ℚ) - y| ≤ 1 / 2)
    (hu : (∃ k : ℤ, u = k) ∨ (u < 2 ^ 52 ∧ 2 ^ 52 ≤ y)) :
    |(m : ℚ) - y| ≤ |u - y| ∧ (u ≠ m → |u - y| = |(m : ℚ) - y| → |(m : ℚ) - y| = 1 / 2) := by
  have h' : |((m : ℤ) : ℚ) - y| ≤ 1 / 2 := by exact_mod_cast h
  obtain ⟨k, rfl⟩ | ⟨below, hy⟩ := hu
  · exact_mod_cast nearest_int (k := k) h'
  · have farther : |(m : ℚ) - y| < |u - y| := by exact_mod_cast nearest_below h' hy below
    exact ⟨farther.le, fun _ heq => absurd heq farther.ne'⟩

/-- The rounded magnitude is below infinity exactly where the exact number is below the limit: only at the last place `2^971`
does the carry out of 53 bits, from `y = 2^53 - 1/2` on, decide. -/
theorem magnitude_lt_infinity_iff {m : ℕ} {q : ℤ} {y : ℚ} (hq : -1074 ≤ q) (hy : y < 2 ^ 53)
    (hyq : 2 ^ 52 ≤ y ∨ q = -1074) (hmq : 2 ^ 52 ≤ m ∨ q = -1074) (hm : m ≤ 2 ^ 53) (near : |(m : ℚ) - y| ≤ 1 / 2)
    (even : |(m : ℚ) - y| = 1 / 2 → m % 2 = 0) :
    y * 2 ^ q < (2 ^ 53 - 1 / 2) * 2 ^ 971 ↔ (q + 1074).toNat * 2 ^ 52 + m < f64InfBits := by
  unfold f64InfBits
  rw [← zpow_natCast (2 : ℚ) 971, Nat.cast_ofNat]
  rcases lt_trichotomy q 971 with hlt | rfl | hgt
  · have small : y * 2 ^ q < (2 ^ 53 - 1 / 2) * 2 ^ (971 : ℤ) := by
      calc y * 2 ^ q ≤ 2 ^ 53 * 2 ^ (971 - 1 : ℤ) := by
            gcongr
            · norm_num
            · omega
        _ = 2 ^ 52 * 2 ^ (971 : ℤ) := by rw [zpow_sub_one₀ two_ne_zero]; ring
        _ < _ := by gcongr; norm_num
    exact iff_of_true small (by omega)
  · obtain ⟨below, above⟩ := abs_le.1 near
    rw [mul_lt_mul_iff_left₀ (zpow_pos two_pos _)]
    have carry : y < 2 ^ 53 - 1 / 2 ↔ m < 2 ^ 53 := by
      constructor
      · intro h
        have : (m : ℚ) < 2 ^ 53 := by linarith
        exact_mod_cast this
      · intro h
        have hm1 : (m + 1 : ℚ) ≤ 2 ^ 53 := by exact_mod_cast h
        refine lt_of_le_of_ne (by linarith) fun hy' => ?_
        have hm2 : (m + 1 : ℚ) = 2 ^ 53 := by linarith
        have odd : m + 1 = 2 ^ 53 := by exact_mod_cast hm2
        have := even (by rw [hy', eq_sub_of_add_eq hm2]; norm_num)
        omega
    rw [carry]
    omega
  · have large : ¬ y * 2 ^ q < (2 ^ 53 - 1 / 2) * 2 ^ (971 : ℤ) := by
      have hy52 : 2 ^ 52 ≤ y := hyq.resolve_right (by omega)
      refine not_lt.2 ?_
      calc ((2 : ℚ) ^ 53 - 1 / 2) * 2 ^ (971 : ℤ) ≤ 2 ^ 53 * 2 ^ (971 : ℤ) := by gcongr; norm_num
        _ = 2 ^ 52 * 2 ^ (971 + 1 : ℤ) := by rw [zpow_add_one₀ two_ne_zero]; ring
        _ ≤ y * 2 ^ q := by
            gcongr
            · norm_num
            · omega
    exact iff_of_false large (by omega)

/-- An infinity has no finite value. -/
theorem asF64_infinite (s : Bool) : asF64 (f64Signed s f64InfBits) = none := by
  cases s <;> decide +kernel

/-- A result of `f64Round` is finite exactly where its magnitude is below infinity, and then its value is `±m × 2^q`. -/
theorem asF64_rounded (s : Bool) {m : ℕ} {q : ℤ} (hq : -1074 ≤ q) (hmq : 2 ^ 52 ≤ m ∨ q = -1074)
    (hm : m ≤ 2 ^ 53) (v : ℚ) :
    asF64 (f64Signed s
        (if f64InfBits ≤ (q + 1074).toNat * 2 ^ 52 + m then f64InfBits else (q + 1074).toNat * 2 ^ 52 + m)) = some v ↔
      (q + 1074).toNat * 2 ^ 52 + m < f64InfBits ∧ v = signOfBool s * (m * 2 ^ q) := by
  split
  · next hinf => exact iff_of_false (by simp [asF64_infinite]) fun h => absurd h.1 (not_lt.2 hinf)
  · next hfin =>
    have hlt := not_le.1 hfin
    rw [asF64, classValue_rounded s hq hmq hm hlt, Option.some.injEq, mul_assoc]
    exact ⟨fun h => ⟨hlt, h.symm⟩, fun h => h.2.symm⟩

/-- `f64Round` rounds to nearest, ties to even. -/
theorem f64Round_roundsTo (s : Bool) {n d : Nat} (e : Int) (hn : 0 < n) (hd : 0 < d) :
    RoundsTo (f64Round s n d e) (signOfBool s * ((n : ℚ) / d * 2 ^ e)) := by
  obtain ⟨m, q, y, hz, hq, hy0, hy, hyq, hmq, hm, near, even, hr⟩ := f64Round_cases s e hn hd
  rw [hz, hr]
  have value := asF64_rounded s hq hmq hm
  refine ⟨?_, ?_⟩
  · rw [abs_mul, abs_signOfBool, one_mul, abs_of_pos (by positivity),
      magnitude_lt_infinity_iff hq hy hyq hmq hm near even]
    simp only [value, exists_and_left, exists_eq, and_true]
  · intro v hv p w hw
    obtain ⟨hlt, rfl⟩ := (value v).1 hv
    obtain ⟨u, rfl, hu⟩ := asF64_eq_scaled hw s q
    have scale : (0 : ℚ) < 2 ^ q := zpow_pos two_pos q
    obtain ⟨nearest, tie⟩ :=
      nearest_significand near (hu.imp_right fun ⟨below, hq'⟩ => ⟨below, hyq.resolve_right hq'⟩)
    rw [abs_sub_scaled, abs_sub_scaled]
    refine ⟨by gcongr, fun hne heq => ?_⟩
    have half := tie (by rintro rfl; exact hne rfl) (mul_right_cancel₀ scale.ne' heq)
    have := even half
    rw [if_neg (not_le.2 hlt), f64Signed_lsb]
    simp only [decide_eq_false_iff_not]
    omega

/-- The encodings of zero round an exact zero. -/
theorem f64Signed_zero_roundsTo (s : Bool) : RoundsTo (f64Signed s 0) 0 := by
  have value : asF64 (f64Signed s 0) = some 0 := by simp [asF64, f64Class_zero, classValue]
  refine ⟨iff_of_true (by norm_num) ⟨0, value⟩, fun v hv p w _ => ⟨?_, fun _ _ => f64Signed_lsb s 0⟩⟩
  obtain rfl : 0 = v := Option.some.inj (value.symm.trans hv)
  simp

/-- `f64Round` of any numerator, 0 included. -/
theorem f64Round_roundsTo_of_eq (s : Bool) {n d : Nat} {e : Int} {z : ℚ} (hd : 0 < d)
    (hz : z = signOfBool s * ((n : ℚ) / d * 2 ^ e)) : RoundsTo (f64Round s n d e) z := by
  rcases Nat.eq_zero_or_pos n with rfl | hn
  · obtain rfl : z = 0 := by simpa using hz
    simpa [f64Round] using f64Signed_zero_roundsTo s
  · exact hz ▸ f64Round_roundsTo s e hn hd

variable {a b : Word} {x y : ℚ}

/-- A significand scaled to a smaller exponent stands for the same number. -/
theorem scaledInt_mul_zpow (s : Bool) (m : ℕ) {em e : ℤ} (h : e ≤ em) :
    (scaledInt s m em e : ℚ) * 2 ^ e = signOfBool s * m * 2 ^ em := by
  have hpow : (2 : ℚ) ^ (em - e).toNat * 2 ^ e = 2 ^ em := by
    rw [← zpow_natCast, ← zpow_add₀ two_ne_zero, Int.toNat_of_nonneg (by omega), sub_add_cancel]
  rw [← hpow]
  push_cast [scaledInt, signOfBool]
  ring

/-- An integer is the factor of its sign times its magnitude. -/
theorem signOfBool_mul_natAbs (x : ℤ) : signOfBool (decide (x < 0)) * (x.natAbs : ℚ) = x := by
  rw [Nat.cast_natAbs, signOfBool]
  rcases lt_or_ge x 0 with h | h
  · simp [h, abs_of_neg h]
  · simp [h.not_gt, abs_of_nonneg h]

/-- `fadd` rounds the exact sum (R11). -/
theorem fadd_roundsTo (ha : asF64 a = some x) (hb : asF64 b = some y) : RoundsTo (fadd a b) (x + y) := by
  obtain ⟨s, m, em, hca, hx, -, -⟩ := asF64_finite ha
  obtain ⟨t, n, en, hcb, hy, -, -⟩ := asF64_finite hb
  have sum : x + y = ((scaledInt s m em (min em en) + scaledInt t n en (min em en) : ℤ) : ℚ) * 2 ^ min em en := by
    rw [Int.cast_add, add_mul, scaledInt_mul_zpow s m (min_le_left em en), scaledInt_mul_zpow t n (min_le_right em en), hx, hy]
    rfl
  rw [fadd, hca, hcb, sum]
  dsimp only
  split
  · next hzero => simpa [hzero] using f64Signed_zero_roundsTo (s && t)
  · refine f64Round_roundsTo_of_eq _ one_pos ?_
    rw [Nat.cast_one, div_one, ← mul_assoc, signOfBool_mul_natAbs]

/-- `fmul` rounds the exact product (R11). -/
theorem fmul_roundsTo (ha : asF64 a = some x) (hb : asF64 b = some y) : RoundsTo (fmul a b) (x * y) := by
  obtain ⟨s, m, em, hca, hx, -, -⟩ := asF64_finite ha
  obtain ⟨t, n, en, hcb, hy, -, -⟩ := asF64_finite hb
  rw [fmul, hca, hcb]
  refine f64Round_roundsTo_of_eq _ one_pos ?_
  rw [hx, hy, signOfBool_xor, zpow_add₀ two_ne_zero]
  push_cast [signOfBool]
  ring

/-- `fdiv` rounds the exact quotient, for a divisor other than 0 (R11). -/
theorem fdiv_roundsTo (ha : asF64 a = some x) (hb : asF64 b = some y) (hy0 : y ≠ 0) : RoundsTo (fdiv a b) (x / y) := by
  obtain ⟨s, m, em, hca, hx, -, -⟩ := asF64_finite ha
  obtain ⟨t, n, en, hcb, hy, -, -⟩ := asF64_finite hb
  have hn : n ≠ 0 := by
    rintro rfl
    exact hy0 (by simpa using hy)
  rw [fdiv, hca, hcb]
  dsimp only
  rw [if_neg hn]
  refine f64Round_roundsTo_of_eq _ (Nat.pos_of_ne_zero hn) ?_
  have hinv : (signOfBool t)⁻¹ = signOfBool t := inv_eq_of_mul_eq_one_right (signOfBool_mul_self t)
  calc x / y = signOfBool s * m * 2 ^ em / (signOfBool t * n * 2 ^ en) := by rw [hx, hy]; rfl
    _ = signOfBool s * (signOfBool t)⁻¹ * (m / n * (2 ^ em / 2 ^ en)) := by ring
    _ = _ := by rw [hinv, signOfBool_xor, zpow_sub₀ two_ne_zero]

/-- Settles O50: each operation is one `f64Round` of the exact result, and `f64Round` picks a nearest significand, the even one
of two, in a grid that holds every binary64 number that could be as near. -/
theorem arithmeticRoundsToNearestEven : Obligations.ArithmeticRoundsToNearestEven := by
  rintro a b r x y z ha hb (⟨rfl, rfl⟩ | ⟨rfl, rfl⟩ | ⟨rfl, hy, rfl⟩)
  · exact fadd_roundsTo ha hb
  · exact fmul_roundsTo ha hb
  · exact fdiv_roundsTo ha hb hy

end Sys2Proof.Proofs
end

section
/-!
SUPPORT. Proofs of the statements about the state and the clock edge: the registers each edge writes, the cache invariant, and
what nobody can observe (spec/10_state.md R20 to R33).
-/

namespace Sys2Proof.Proofs

open Sys2Proof.Machine Sys2Proof.Laws Sys2Proof.Safety

variable {s t : State} {i : Instr} {p : Pins} {rest : List Pins}

/-! ## An edge and a step, one equation per case -/

/-- An edge with `rst = 1` (R150). -/
theorem edge_of_reset (hr : p.rst = true) : edge p s = .next (resetEdge s) := by
  simp only [edge, hr]

/-- An edge that accepts a command (R28, R48). -/
theorem edge_of_command (hr : p.rst = false) (hv : p.cmdValid = true) : edge p s = exec (decode p.cmdWord) s := by
  simp [edge, accepted, cmdReady, hr, hv]

/-- An edge with no reset and no command (R29). -/
theorem edge_of_idle (hr : p.rst = false) (hv : p.cmdValid = false) : edge p s = .next (idleEdge s) := by
  simp [edge, accepted, hr, hv]

/-- Past the end of the inputs a step is an idle edge. -/
theorem step_of_no_inputs (h : s.inputs = []) : step s = .next (idleEdge s) := by
  simp only [step, h]

/-- A step is an edge with the next inputs, which it uses up. -/
theorem step_of_inputs (h : s.inputs = p :: rest) : step s = edge p { s with inputs := rest } := by
  simp only [step, h]

/-- No command stops the block (R121). -/
theorem exec_answers (i : Instr) (s : State) : ∃ t, exec i s = .next t := by
  cases i with
  | combine i16 i32 => exact complete_answers _
  | load len data =>
    by_cases hlen : len = 6
    · exact ⟨_, if_pos hlen⟩
    · exact ⟨_, if_neg hlen⟩
  | toSingle => exact withBuffer_answers (complete_answers _)
  | toDouble => exact withBuffer_answers (complete_answers _)
  | reverse | value | getSign | getExp | getBuf => exact withBuffer_answers ⟨_, rfl⟩
  | nop | reservedA | reservedB | reservedC | reservedD | reservedE | reservedF => exact ⟨_, rfl⟩

/-- The decoder reads integers and lengths that fit their fields (R62, R64). -/
theorem decode_wellFormed (c : Word) : (decode c).wellFormed = true := by
  have h16 : -32768 ≤ (i16Field c).toInt ∧ (i16Field c).toInt ≤ 32767 := by
    have := (i16Field c).le_toInt
    have := (i16Field c).toInt_lt
    omega
  have h32 : -2147483648 ≤ (i32Field c).toInt ∧ (i32Field c).toInt ≤ 2147483647 := by
    have := (i32Field c).le_toInt
    have := (i32Field c).toInt_lt
    omega
  have hlen : (lenField c).toNat ≤ 15 := Nat.le_of_lt_succ (lenField c).isLt
  obtain ⟨-, h⟩ | ⟨-, h⟩ | ⟨-, h⟩ | ⟨-, h⟩ | ⟨-, h⟩ | ⟨-, h⟩ | ⟨-, h⟩ | ⟨-, h⟩ |
    ⟨-, h⟩ | ⟨-, h⟩ | ⟨-, h⟩ | ⟨-, h⟩ | ⟨-, h⟩ | ⟨-, h⟩ | ⟨-, h⟩ | ⟨-, h⟩ := decode_cases c <;>
  simp [h, Instr.wellFormed, h16, h32, hlen]

/-! ## What each command leaves unchanged -/

/-- Every status but INFINITY has a code of at most 5 (R131). -/
theorem statusCode_toNat_le {st : Status} (h : st ≠ .infinity) : (statusCode st).toNat ≤ 5 := by
  cases st with
  | infinity => exact absurd rfl h
  | ok | range | length | noBuffer | underflow | illegal => decide

/-- An answer writes the response registers alone, and a legal response (R68, R131, R139). -/
theorem answers_frame (h : Answers s t) :
    DecoderUnchanged s t ∧ t.inputs = s.inputs ∧ t.rspValid = true ∧ ResponseLegal t := by
  obtain ⟨d, rfl⟩ | ⟨st, rfl, -, hinf⟩ := h
  · exact ⟨⟨rfl, rfl, rfl, rfl⟩, rfl, rfl, by simp [ResponseLegal, statusCode]⟩
  · exact ⟨⟨rfl, rfl, rfl, rfl⟩, rfl, rfl, statusCode_toNat_le hinf, fun _ => rfl⟩

/-- Every command presents a legal response and leaves the inputs (R20, R29). -/
theorem exec_response (h : exec i s = .next t) : t.inputs = s.inputs ∧ t.rspValid = true ∧ ResponseLegal t := by
  obtain ha | ⟨v, -, rfl⟩ | ⟨-, -, rfl⟩ := exec_cases h
  · exact (answers_frame ha).2
  · exact ⟨rfl, rfl, by simp [ResponseLegal, statusCode]⟩
  · exact ⟨rfl, rfl, by simp [ResponseLegal, statusCode]⟩

/-- A command other than a LOAD of six bytes leaves VALID as it was (R25). -/
theorem exec_keeps_valid (h : exec i s = .next t) (hl : ∀ v, i ≠ .load 6 v) : t.valid = s.valid := by
  obtain ha | ⟨v, hi, -⟩ | ⟨-, -, rfl⟩ := exec_cases h
  · obtain ⟨⟨-, -, -, hvalid⟩, -⟩ := answers_frame ha
    exact hvalid
  · exact absurd hi (hl v)
  · rfl

/-! ## The cache invariant -/

/-- From `s` to `t` the buffer and its caches are kept and VALID is not set, or the caches are those of the buffer in `t`. -/
def CachesKeptOrFresh (s t : State) : Prop :=
  (t.buf = s.buf ∧ t.sign = s.sign ∧ t.exp = s.exp ∧ (t.valid = true → s.valid = true)) ∨
  (t.sign = signOf t.buf ∧ t.exp = expOf t.buf)

/-- What keeps the Decoder's registers keeps its caches. -/
theorem cachesKeptOrFresh_of_unchanged (h : DecoderUnchanged s t) : CachesKeptOrFresh s t := by
  obtain ⟨hbuf, hsign, hexp, hvalid⟩ := h
  exact .inl ⟨hbuf, hsign, hexp, fun ht => hvalid ▸ ht⟩

/-- A command that writes BUF writes SIGN and EXP with it (R24). -/
theorem exec_cachesKeptOrFresh (h : exec i s = .next t) : CachesKeptOrFresh s t := by
  obtain ha | ⟨v, -, rfl⟩ | ⟨-, -, rfl⟩ := exec_cases h
  · exact cachesKeptOrFresh_of_unchanged (answers_frame ha).1
  · exact .inr ⟨rfl, rfl⟩
  · exact .inr ⟨rfl, rfl⟩

/-- An edge keeps the buffer with its caches or leaves them fresh; a reset edge writes none of them (R150). -/
theorem edge_cachesKeptOrFresh (h : edge p s = .next t) : CachesKeptOrFresh s t := by
  obtain ⟨-, rfl⟩ | ⟨-, -, hx⟩ | ⟨-, -, rfl⟩ := edge_cases h
  · exact .inl ⟨rfl, rfl, rfl, fun hv => nomatch hv⟩
  · exact exec_cachesKeptOrFresh hx
  · exact cachesKeptOrFresh_of_unchanged ⟨rfl, rfl, rfl, rfl⟩

/-- A step keeps the buffer with its caches or leaves them fresh. -/
theorem step_cachesKeptOrFresh (h : step s = .next t) : CachesKeptOrFresh s t := by
  obtain ⟨-, rfl⟩ | ⟨p, rest, -, he⟩ := step_cases h
  · exact cachesKeptOrFresh_of_unchanged ⟨rfl, rfl, rfl, rfl⟩
  · exact edge_cachesKeptOrFresh (s := { s with inputs := rest }) he

/-- Coherent caches stay coherent: either they and the buffer are kept, or they are fresh. -/
theorem CachesKeptOrFresh.coherent (h : CachesKeptOrFresh s t) (hs : CacheCoherent s) : CacheCoherent t := by
  intro hv
  obtain ⟨hbuf, hsign, hexp, hvalid⟩ | hfresh := h
  · rw [hbuf, hsign, hexp]
    exact hs (hvalid hv)
  · exact hfresh

/-- Where the buffer changed, the caches are fresh. -/
theorem CachesKeptOrFresh.fresh (h : CachesKeptOrFresh s t) (hbuf : t.buf ≠ s.buf) :
    t.sign = signOf t.buf ∧ t.exp = expOf t.buf := by
  obtain ⟨hkept, -⟩ | hfresh := h
  · exact absurd hkept hbuf
  · exact hfresh

/-- Settles O18: a step keeps the buffer with its caches or leaves them fresh. -/
theorem cachedFieldsNeverStale : Obligations.CachedFieldsNeverStale := fun _ _ h =>
  ⟨(step_cachesKeptOrFresh h).coherent, (step_cachesKeptOrFresh h).fresh⟩

/-! ## The whole invariant -/

/-- An edge leaves a legal response after a legal one: the one it found, a command's, or the zeros of reset. -/
theorem edge_responseLegal (hs : ResponseLegal s) (h : edge p s = .next t) : ResponseLegal t := by
  obtain ⟨-, rfl⟩ | ⟨-, -, hx⟩ | ⟨-, -, rfl⟩ := edge_cases h
  · exact ⟨Nat.zero_le 5, fun _ => rfl⟩
  · obtain ⟨-, -, hlegal⟩ := exec_response hx
    exact hlegal
  · exact hs

/-- A step leaves a legal response after a legal one. -/
theorem step_responseLegal (hs : ResponseLegal s) (h : step s = .next t) : ResponseLegal t := by
  obtain ⟨-, rfl⟩ | ⟨p, rest, -, he⟩ := step_cases h
  · exact hs
  · exact edge_responseLegal (s := { s with inputs := rest }) hs he

/-- Settles O19: the caches by O18's lemma, the response by the cases of a step. -/
theorem invariantKeptByEveryStep : Obligations.InvariantKeptByEveryStep := fun _ _ ⟨hcache, hresponse⟩ h =>
  ⟨(step_cachesKeptOrFresh h).coherent hcache, step_responseLegal hresponse h⟩

/-! ## States that cannot be told apart -/

/-- While VALID = 1 nothing is hidden: such states are equal. -/
theorem eq_of_indistinguishable (h : Indistinguishable s t) (hv : s.valid = true) : s = t := by
  obtain ⟨hvalid, hrsp, hstatus, hdata, hinputs, hbuffer⟩ := h
  obtain ⟨hbuf, hsign, hexp⟩ := hbuffer hv
  cases s
  cases t
  simp_all

/-- A state cannot be told from itself. -/
theorem indistinguishable_refl (s : State) : Indistinguishable s s :=
  ⟨rfl, rfl, rfl, rfl, rfl, fun _ => ⟨rfl, rfl, rfl⟩⟩

/-- The same response leaves two states indistinguishable. -/
theorem indistinguishable_respond (h : Indistinguishable s t) (st : Status) (d : Word) :
    Indistinguishable (respond st d s) (respond st d t) := by
  obtain ⟨hvalid, -, -, -, hinputs, hbuffer⟩ := h
  exact ⟨hvalid, rfl, rfl, rfl, hinputs, hbuffer⟩

/-- An idle edge leaves two states indistinguishable (R29). -/
theorem indistinguishable_idleEdge (h : Indistinguishable s t) : Indistinguishable (idleEdge s) (idleEdge t) := by
  obtain ⟨hvalid, -, hstatus, hdata, hinputs, hbuffer⟩ := h
  exact ⟨hvalid, rfl, hstatus, hdata, hinputs, hbuffer⟩

/-- Giving both the same inputs leaves two states indistinguishable. -/
theorem indistinguishable_withInputs (h : Indistinguishable s t) (rest : List Pins) :
    Indistinguishable { s with inputs := rest } { t with inputs := rest } := by
  obtain ⟨hvalid, hrsp, hstatus, hdata, -, hbuffer⟩ := h
  exact ⟨hvalid, hrsp, hstatus, hdata, rfl, hbuffer⟩

/-- A reset edge makes any two states with the same inputs indistinguishable (R32, R150). -/
theorem indistinguishable_resetEdge (h : s.inputs = t.inputs) : Indistinguishable (resetEdge s) (resetEdge t) :=
  ⟨rfl, rfl, rfl, rfl, h, fun hv => nomatch hv⟩

/-- A successful LOAD makes any two states with the same inputs indistinguishable: it writes the whole buffer (R90). -/
theorem indistinguishable_loaded (h : s.inputs = t.inputs) (v : Bytes6) :
    Indistinguishable (respond .ok 0 (setValid (writeBuf v s))) (respond .ok 0 (setValid (writeBuf v t))) :=
  ⟨rfl, rfl, rfl, rfl, h, fun _ => ⟨rfl, rfl, rfl⟩⟩

/-- Indistinguishable states show the same output ports (R28). -/
theorem outputs_eq_of_indistinguishable (h : Indistinguishable s t) (p : Pins) : outputs p s = outputs p t := by
  obtain ⟨-, hrsp, hstatus, hdata, -, -⟩ := h
  simp only [outputs, hrsp, hstatus, hdata]

/-- Without a buffer, a command other than a LOAD of six bytes has one response, whatever the registers hold (R134, R138). -/
theorem exec_without_buffer (i : Instr) (hl : ∀ v, i ≠ .load 6 v) :
    ∃ st d, ∀ s : State, s.valid = false → exec i s = .next (respond st d s) := by
  cases i with
  | nop => exact ⟨.ok, 0, fun _ _ => rfl⟩
  | combine i16 i32 =>
    cases hc : combineResult i16 i32 with
    | ok d => exact ⟨.ok, d, fun _ _ => by simp only [exec, execCombine, hc, complete]⟩
    | error e => exact ⟨e, 0, fun _ _ => by simp only [exec, execCombine, hc, complete, raise]⟩
  | load len v =>
    have hlen : len ≠ 6 := fun h => hl v (h ▸ rfl)
    exact ⟨.length, 0, fun _ _ => if_neg hlen⟩
  | reverse | toSingle | toDouble | value | getSign | getExp | getBuf =>
    exact ⟨.noBuffer, 0, fun _ hs => withBuffer_invalid hs⟩
  | reservedA | reservedB | reservedC | reservedD | reservedE | reservedF => exact ⟨.illegal, 0, fun _ _ => rfl⟩

/-- Both outcomes are next states, and these cannot be told apart. -/
def AnswerAlike (o o' : Host.Outcome State Fault Refusal) : Prop :=
  ∃ s t, o = .next s ∧ o' = .next t ∧ Indistinguishable s t

/-- A command answers alike in states that cannot be told apart: with VALID = 1 they are equal, with VALID = 0 it reads no
register. -/
theorem exec_alike (i : Instr) (h : Indistinguishable s t) : AnswerAlike (exec i s) (exec i t) := by
  cases hv : s.valid with
  | true =>
    obtain rfl := eq_of_indistinguishable h hv
    obtain ⟨u, hu⟩ := exec_answers i s
    exact ⟨u, u, hu, hu, indistinguishable_refl u⟩
  | false =>
    obtain ⟨hvalid, -, -, -, hinputs, -⟩ := id h
    by_cases hl : ∃ v, i = .load 6 v
    · obtain ⟨v, rfl⟩ := hl
      exact ⟨_, _, rfl, rfl, indistinguishable_loaded hinputs v⟩
    · obtain ⟨st, d, hexec⟩ := exec_without_buffer i (not_exists.mp hl)
      exact ⟨_, _, hexec s hv, hexec t (hvalid ▸ hv), indistinguishable_respond h st d⟩

/-- An edge with the same input ports answers alike in states that cannot be told apart. -/
theorem edge_alike (p : Pins) (h : Indistinguishable s t) : AnswerAlike (edge p s) (edge p t) := by
  cases hr : p.rst with
  | true =>
    obtain ⟨-, -, -, -, hinputs, -⟩ := h
    exact ⟨_, _, edge_of_reset hr, edge_of_reset hr, indistinguishable_resetEdge hinputs⟩
  | false =>
    cases hv : p.cmdValid with
    | true =>
      rw [edge_of_command hr hv, edge_of_command hr hv]
      exact exec_alike _ h
    | false => exact ⟨_, _, edge_of_idle hr hv, edge_of_idle hr hv, indistinguishable_idleEdge h⟩

/-- A step answers alike in states that cannot be told apart. -/
theorem step_alike (h : Indistinguishable s t) : AnswerAlike (step s) (step t) := by
  obtain ⟨-, -, -, -, hinputs, -⟩ := id h
  cases hs : s.inputs with
  | nil => exact ⟨_, _, step_of_no_inputs hs, step_of_no_inputs (hinputs ▸ hs), indistinguishable_idleEdge h⟩
  | cons p rest =>
    rw [step_of_inputs hs, step_of_inputs (hinputs ▸ hs)]
    exact edge_alike p (indistinguishable_withInputs h rest)

/-- A run of any length ends alike from states that cannot be told apart. -/
theorem run_alike (k : Nat) (h : Indistinguishable s t) : AnswerAlike (core.run k s) (core.run k t) := by
  induction k generalizing s t with
  | zero => exact ⟨s, t, rfl, rfl, h⟩
  | succ k ih =>
    obtain ⟨s', t', hs, ht, h'⟩ := step_alike h
    rw [run_succ k hs, run_succ k ht]
    exact ih h'

/-- Settles O21: a step answers alike, and the ports show registers on which the next states agree. -/
theorem staleBufferIsUnobservable : Obligations.StaleBufferIsUnobservable := by
  intro s t s' t' h hs ht
  obtain ⟨u, u', hu, hu', h'⟩ := step_alike h
  cases hs.symm.trans hu
  cases ht.symm.trans hu'
  exact ⟨h', outputs_eq_of_indistinguishable h'⟩

/-- Settles O22: the reset edge makes the states alike, and the rest of the run keeps them so. -/
theorem nothingPersistsAcrossReset : Obligations.NothingPersistsAcrossReset := by
  intro s t p rest k hs ht hr
  have reset {u : State} (hu : u.inputs = p :: rest) : step u = .next (resetEdge { u with inputs := rest }) :=
    (step_of_inputs hu).trans (edge_of_reset hr)
  rw [run_succ k (reset hs), run_succ k (reset ht)]
  exact run_alike k (indistinguishable_resetEdge rfl)

/-! ## The registers each edge writes -/

/-- Settles O12: the two equations of an edge with `rst = 0`. -/
theorem responseRegistersAtEachEdge : Obligations.ResponseRegistersAtEachEdge := by
  intro s p rest hs hr
  rw [step_of_inputs hs]
  constructor
  · intro hv
    obtain ⟨t, ht⟩ := exec_answers (decode p.cmdWord) { s with inputs := rest }
    obtain ⟨-, hrsp, -⟩ := exec_response ht
    exact ⟨t, ht, (edge_of_command hr hv).trans ht, hrsp⟩
  · exact edge_of_idle hr

/-- Settles O20: a reset edge, an accepted LOAD of six bytes, and the other edges with `rst = 0`. -/
theorem validWrittenByLoadAndReset : Obligations.ValidWrittenByLoadAndReset := by
  intro s t p rest hs h
  rw [step_of_inputs hs] at h
  refine ⟨fun hr => ?_, fun hr hv hload => ?_, fun hr hl => ?_⟩
  · rw [edge_of_reset hr] at h
    cases h
    rfl
  · obtain ⟨v, hd⟩ := hload
    rw [edge_of_command hr hv, hd] at h
    cases h
    rfl
  · cases hv : p.cmdValid with
    | true =>
      rw [edge_of_command hr hv] at h
      exact exec_keeps_valid (s := { s with inputs := rest }) h fun v hd => hl ⟨hv, v, hd⟩
    | false =>
      rw [edge_of_idle hr hv] at h
      cases h
      rfl

/-- Settles O23: an answer is the one case left when the command is neither LOAD of six bytes nor REVERSE. -/
theorem onlyLoadAndReverseWriteTheDecoder : Obligations.OnlyLoadAndReverseWriteTheDecoder := by
  intro i s t h
  obtain ⟨hinputs, hrsp, -⟩ := exec_response h
  refine ⟨hinputs, hrsp, fun hl hr => ?_⟩
  obtain ha | ⟨v, hi, -⟩ | ⟨hi, -, -⟩ := exec_cases h
  · exact (answers_frame ha).1
  · exact absurd hi (hl v)
  · exact absurd hi hr

/-- Settles O10: an issued word is an edge that accepts a command, and `withFetchWord` issues the word itself. -/
theorem stepRunsTheDecodedCommand : Obligations.StepRunsTheDecodedCommand := by
  have issued {s : State} {c : Word} {rest : List Pins} (hs : s.inputs = issue c :: rest) :
      step s = exec (decode c) { s with inputs := rest } :=
    (step_of_inputs hs).trans (edge_of_command rfl rfl)
  refine ⟨fun s c rest hs => ⟨decode_wellFormed c, issued hs⟩, fun s w => ?_⟩
  have hw : BitVec.ofNat 64 (w % 2 ^ 64) = BitVec.ofNat 64 w := BitVec.eq_of_toNat_eq (by simp)
  rw [issued (withFetchWord_inputs s 64 w), hw]
  rfl

/-- Settles O11: acceptance is the conjunction of the two port bits. -/
theorem portsShowTheRegisters : Obligations.PortsShowTheRegisters := fun _ _ =>
  ⟨rfl, Bool.and_eq_true_iff⟩

/-- Settles O16: the reset state's own fields. -/
theorem resetStateValues : Obligations.ResetStateValues :=
  ⟨rfl, rfl, rfl, rfl⟩

/-- Settles O17: VALID = 0 after reset, so the caches need no values, and status and data are 0. -/
theorem invariantHoldsAtReset : Obligations.InvariantHoldsAtReset :=
  ⟨fun hv => absurd hv Bool.false_ne_true, Nat.zero_le 5, fun _ => rfl⟩

end Sys2Proof.Proofs
end

section
/-!
SUPPORT. Proofs of the statements about the order in which commands take effect and about several blocks
(spec/20_memory.md R47, R53).
-/

namespace Sys2Proof.Proofs

open Sys2Proof.Machine Sys2Proof.Laws Sys2Proof.Safety

variable {s t : State} {i : Instr} {k : State → Host.Outcome State Fault Refusal}

/-! ## A command does not see the response before it -/

/-- The NO_BUFFER check does not see the response before it, where the command after it does not. -/
theorem withBuffer_respond {st : Status} {d : Word} (hk : k (respond st d s) = k s) :
    withBuffer (respond st d s) (k (respond st d s)) = withBuffer s (k s) := by
  cases hv : s.valid with
  | true => rw [withBuffer_valid hv, withBuffer_valid (s := respond st d s) hv, hk]
  | false =>
    rw [withBuffer_invalid hv, withBuffer_invalid (s := respond st d s) hv]
    rfl

/-- A result replaces the response before it. -/
theorem complete_respond (r : Except Status Word) (st : Status) (d : Word) (s : State) :
    complete r (respond st d s) = complete r s := by
  cases r with
  | ok data => rfl
  | error e => rfl

/-- No command reads the response registers, and every command writes them all (R29). -/
theorem exec_respond (i : Instr) (st : Status) (d : Word) (s : State) : exec i (respond st d s) = exec i s := by
  cases i with
  | combine i16 i32 => exact complete_respond _ st d s
  | load len data =>
    by_cases hlen : len = 6
    · subst hlen
      rfl
    · exact (if_neg hlen).trans (if_neg hlen).symm
  | toSingle => exact withBuffer_respond (k := fun u => complete _ u) (complete_respond _ st d s)
  | toDouble => exact withBuffer_respond (k := fun u => complete _ u) (complete_respond _ st d s)
  | reverse | value | getSign | getExp | getBuf => exact withBuffer_respond (k := fun u => .next (respond .ok _ _)) rfl
  | nop | reservedA | reservedB | reservedC | reservedD | reservedE | reservedF => rfl

/-! ## Commands repeated at once -/

/-- A command that writes no Decoder register answers (R46, R91). -/
theorem exec_answers_of_no_write (h : exec i s = .next t) (hl : ∀ v, i ≠ .load 6 v) (hr : i ≠ .reverse) :
    Answers s t := by
  obtain ha | ⟨v, hi, -⟩ | ⟨hi, -, -⟩ := exec_cases h
  · exact ha
  · exact absurd hi (hl v)
  · exact absurd hi hr

/-- An answer is the old state with a response. -/
theorem eq_respond_of_answers (h : Answers s t) : ∃ st d, t = respond st d s := by
  obtain ⟨d, rfl⟩ | ⟨st, rfl, -, -⟩ := h
  · exact ⟨.ok, d, rfl⟩
  · exact ⟨st, 0, rfl⟩

/-- A command that only answered gives the same state again: it does not see its own response. -/
theorem exec_repeat (h : exec i s = .next t) (ha : Answers s t) : exec i t = .next t := by
  obtain ⟨st, d, rfl⟩ := eq_respond_of_answers ha
  rw [exec_respond, h]

/-- LOAD of six bytes (R90). -/
theorem exec_load_six (data : Bytes6) (s : State) :
    exec (.load 6 data) s = .next (respond .ok 0 (setValid (writeBuf data s))) := rfl

/-- LOAD of another number of bytes (R133). -/
theorem exec_load_other {len : Nat} (hlen : len ≠ 6) (data : Bytes6) (s : State) :
    exec (.load len data) s = .next (raise .length s) := if_neg hlen

/-- A LOAD repeated at once gives the same state. -/
theorem exec_load_twice (len : Nat) (data : Bytes6) (s : State) :
    ∃ t, exec (.load len data) s = .next t ∧ exec (.load len data) t = .next t := by
  by_cases hlen : len = 6
  · subst hlen
    exact ⟨_, exec_load_six data s, exec_load_six data _⟩
  · exact ⟨_, exec_load_other hlen data s, exec_load_other hlen data _⟩

/-- Reversing the six bytes twice restores the word (R95): byte `i` comes from byte `5 - (5 - i)`. -/
theorem reverseBytes_reverseBytes (w : Bytes6) : reverseBytes (reverseBytes w) = w := by
  calc reverseBytes (reverseBytes w)
      = ofBytes (byteOf w 0) (byteOf w 1) (byteOf w 2) (byteOf w 3) (byteOf w 4) (byteOf w 5) := by
        rw [reverseBytes]
        simp [byteOf_reverseBytes]
    _ = w := ofBytes_byteOf w

/-- The last buffer written is the one that stands. -/
@[simp] theorem writeBuf_writeBuf (v w : Bytes6) (s : State) : writeBuf v (writeBuf w s) = writeBuf v s := rfl

/-- REVERSE of a valid buffer (R91). -/
theorem exec_reverse (hv : s.valid = true) :
    exec .reverse s = .next (respond .ok 0 (writeBuf (reverseBytes s.buf) s)) := withBuffer_valid hv

/-- Two REVERSEs of a valid buffer write the buffer it was, with fresh caches (R91, R95). -/
theorem exec_reverse_reverse (hv : s.valid = true) :
    ∃ t, exec .reverse s = .next t ∧ exec .reverse t = .next (respond .ok 0 (writeBuf s.buf s)) := by
  refine ⟨_, exec_reverse hv, ?_⟩
  rw [exec_respond, exec_reverse (s := writeBuf _ s) hv, writeBuf_buf, reverseBytes_reverseBytes, writeBuf_writeBuf]

/-- Writing a valid coherent buffer back changes no Decoder register (R24). -/
theorem decoderUnchanged_writeBuf_buf (hv : s.valid = true) (hc : CacheCoherent s) :
    DecoderUnchanged s (writeBuf s.buf s) := by
  obtain ⟨hsign, hexp⟩ := hc hv
  exact ⟨rfl, hsign.symm, hexp.symm, rfl⟩

/-- Settles O37: a read only answers, so it repeats; LOAD writes the same registers again; two REVERSEs write the buffer
back. -/
theorem readsHaveNoSideEffects : Obligations.ReadsHaveNoSideEffects := by
  refine ⟨fun s i hi => ?_, fun s len data => exec_load_twice len data s, fun s hv hc => ?_⟩
  · have hl : ∀ v, i ≠ .load 6 v := by
      rintro v rfl
      simp at hi
    have hr : i ≠ .reverse := by
      rintro rfl
      simp at hi
    obtain ⟨t, ht⟩ := exec_answers i s
    have ha := exec_answers_of_no_write ht hl hr
    refine ⟨t, ht, ?_, exec_repeat ht ha⟩
    obtain ⟨st, d, rfl⟩ := eq_respond_of_answers ha
    rfl
  · obtain ⟨t, ht, hu⟩ := exec_reverse_reverse hv
    exact ⟨t, _, ht, hu, decoderUnchanged_writeBuf_buf hv hc⟩

/-! ## Several blocks -/

/-- No step stops the block: it answers alike from a state and itself. -/
theorem step_answers (s : State) : ∃ t, step s = .next t := by
  obtain ⟨t, -, ht, -⟩ := step_alike (indistinguishable_refl s)
  exact ⟨t, ht⟩

/-- An edge of block `n` puts its next state in its place (R53). -/
theorem stepInstance_next {blocks : List State} {n : Nat} (hs : blocks[n]? = some s) (ht : step s = .next t) :
    stepInstance n blocks = .next (blocks.set n t) := by
  simp only [stepInstance, hs, ht]

/-- Settles O54: the edge sets entry `n` of the list and no other. -/
theorem instancesAreIndependent : Obligations.InstancesAreIndependent := by
  intro blocks n s hs
  obtain ⟨t, ht⟩ := step_answers s
  obtain ⟨hn, -⟩ := List.getElem?_eq_some_iff.1 hs
  exact ⟨t, blocks.set n t, ht, stepInstance_next hs ht, List.getElem?_set_self hn,
    fun m hm => List.getElem?_set_ne hm.symm⟩

end Sys2Proof.Proofs
end

section
/-!
SUPPORT. Proofs of the statements about the command encoding: the fields of a word, the decoder and the encoder
(spec/30_encoding.md R60 to R66, R71).
-/

namespace Sys2Proof.Proofs

open Sys2Proof.Machine Sys2Proof.Laws

/-! ## The fields of a word -/

/-- RSVD of an assembled word (R63). -/
@[simp] theorem rsvdField_commandWord (op len : BitVec 4) (rsvd : BitVec 8) (data : Bytes6) :
    rsvdField (commandWord op len rsvd data) = rsvd := by
  rw [rsvdField, commandWord, BitVec.extractLsb'_append_eq_of_le (by decide)]
  exact BitVec.extractLsb'_append_eq_right

/-- OP and LEN are the top byte of the word (R60). -/
theorem opField_append_lenField (c : Word) : opField c ++ lenField c = c.extractLsb' 56 8 :=
  BitVec.extractLsb'_append_extractLsb'_eq_extractLsb' rfl

/-- A word is made of its four fields (R60). -/
theorem commandWord_fields (c : Word) : commandWord (opField c) (lenField c) (rsvdField c) (dataField c) = c := by
  have high : c.extractLsb' 56 8 ++ rsvdField c = c.extractLsb' 48 16 :=
    BitVec.extractLsb'_append_extractLsb'_eq_extractLsb' rfl
  have whole : c.extractLsb' 48 16 ++ dataField c = c := BitVec.extractLsb'_append_extractLsb'
  rw [commandWord, opField_append_lenField, high, whole]

/-- I16 and I32 joined are DATA (R64). -/
theorem i16Field_append_i32Field (c : Word) : i16Field c ++ i32Field c = dataField c :=
  BitVec.extractLsb'_append_extractLsb'_eq_extractLsb' rfl

/-- I16 is the upper part of DATA (R64). -/
theorem i16Field_eq_of_dataField (c : Word) : i16Field c = (dataField c).extractLsb' 32 16 := by
  rw [← i16Field_append_i32Field, BitVec.extractLsb'_append_eq_left]

/-- I32 is the lower part of DATA (R64). -/
theorem i32Field_eq_of_dataField (c : Word) : i32Field c = (dataField c).extractLsb' 0 32 := by
  rw [← i16Field_append_i32Field, BitVec.extractLsb'_append_eq_right]

/-- Byte `i` of DATA is `C[47-8i:40-8i]` (R64). -/
theorem byteOf_dataField (c : Word) (i : Nat) : byteOf (dataField c) i = c.extractLsb' (40 - 8 * i) 8 := by
  rw [byteOf, dataField, BitVec.extractLsb'_extractLsb'_of_le (by omega)]

/-- Masking an assembled word masks each field. -/
theorem commandWord_and (o o' l l' : BitVec 4) (r r' : BitVec 8) (d d' : Bytes6) :
    commandWord o l r d &&& commandWord o' l' r' d' = commandWord (o &&& o') (l &&& l') (r &&& r') (d &&& d') := by
  calc commandWord o l r d &&& commandWord o' l' r' d'
      = (o ++ l ++ r &&& o' ++ l' ++ r') ++ (d &&& d') := BitVec.and_append
    _ = commandWord (o &&& o') (l &&& l') (r &&& r') (d &&& d') := by
      rw [commandWord, BitVec.and_append, BitVec.and_append]

/-- Masking a word masks each field. -/
theorem and_commandWord (c : Word) (o l : BitVec 4) (r : BitVec 8) (d : Bytes6) :
    c &&& commandWord o l r d =
      commandWord (opField c &&& o) (lenField c &&& l) (rsvdField c &&& r) (dataField c &&& d) := by
  rw [← commandWord_and, commandWord_fields]

/-- Keeping OP and clearing every other field. -/
theorem and_opMask (c : Word) : c &&& 0xF000000000000000 = commandWord (opField c) 0 0 0 := by
  have mask : (0xF000000000000000 : Word) = commandWord (BitVec.allOnes 4) 0#4 0#8 0#48 := by decide
  rw [mask, and_commandWord, BitVec.and_allOnes, BitVec.and_zero, BitVec.and_zero, BitVec.and_zero]
  rfl

/-! ## The decoder, by opcode -/

/-- The opcode of the decoded command is OP (R65). -/
theorem opcodeOf_decode (c : Word) : opcodeOf (decode c) = opField c := by
  obtain ⟨ho, h⟩ | ⟨ho, h⟩ | ⟨ho, h⟩ | ⟨ho, h⟩ | ⟨ho, h⟩ | ⟨ho, h⟩ | ⟨ho, h⟩ | ⟨ho, h⟩ |
    ⟨ho, h⟩ | ⟨ho, h⟩ | ⟨ho, h⟩ | ⟨ho, h⟩ | ⟨ho, h⟩ | ⟨ho, h⟩ | ⟨ho, h⟩ | ⟨ho, h⟩ := decode_cases c <;>
  rw [ho, h] <;> rfl

/-- COMBINE's operands are read from I16 and I32 (R64). -/
theorem decode_combine {c : Word} (h : opField c = 0x1#4) :
    decode c = .combine (i16Field c).toInt (i32Field c).toInt := by
  simp [decode, h]

/-- LOAD's operands are read from LEN and DATA (R62, R64). -/
theorem decode_load {c : Word} (h : opField c = 0x2#4) : decode c = .load (lenField c).toNat (dataField c) := by
  simp [decode, h]

/-- Every other command is selected by OP alone (R64). -/
theorem decode_eq_of_opField_eq {c c' : Word} (h : opField c = opField c') (h1 : opField c ≠ 0x1#4)
    (h2 : opField c ≠ 0x2#4) : decode c = decode c' := by
  have h1' : (opField c').toNat ≠ 1 := fun e => h1 (h ▸ BitVec.eq_of_toNat_eq e)
  have h2' : (opField c').toNat ≠ 2 := fun e => h2 (h ▸ BitVec.eq_of_toNat_eq e)
  rw [decode, decode, h]
  split
  case h_2 => contradiction
  case h_3 => contradiction
  all_goals rfl

/-- A word that agrees in OP, LEN and DATA decodes to the same command (R63). -/
theorem decode_eq_of_fields_eq {c c' : Word} (ho : opField c = opField c') (hl : lenField c = lenField c')
    (hd : dataField c = dataField c') : decode c = decode c' := by
  by_cases h1 : opField c = 0x1#4
  · rw [decode_combine h1, decode_combine (ho ▸ h1), i16Field_eq_of_dataField, i32Field_eq_of_dataField, hd,
      ← i16Field_eq_of_dataField, ← i32Field_eq_of_dataField]
  · by_cases h2 : opField c = 0x2#4
    · rw [decode_load h2, decode_load (ho ▸ h2), hl, hd]
    · exact decode_eq_of_opField_eq ho h1 h2

/-! ## Encoding and decoding -/

/-- The word of COMBINE decodes to it, for integers its fields hold (R64). -/
theorem decode_encode_combine {i16 i32 : Int} (h16 : -32768 ≤ i16 ∧ i16 ≤ 32767)
    (h32 : -2147483648 ≤ i32 ∧ i32 ≤ 2147483647) : decode (encode (.combine i16 i32)) = .combine i16 i32 := by
  rw [decode_combine (EncodedOpcode.combine i16 i32), encode, i16Field_commandWord, i32Field_commandWord,
    BitVec.toInt_ofInt_eq_self (by decide) (by omega) (by omega),
    BitVec.toInt_ofInt_eq_self (by decide) (by omega) (by omega)]

/-- The word of LOAD decodes to it, for a length its field holds (R62). -/
theorem decode_encode_load {len : Nat} (hlen : len ≤ 15) (data : Bytes6) :
    decode (encode (.load len data)) = .load len data := by
  rw [decode_load (EncodedOpcode.load len data), encode, lenField_commandWord, dataField_commandWord, BitVec.toNat_ofNat,
    Nat.mod_eq_of_lt (by omega)]

/-- Settles O1: COMBINE and LOAD by their operand fields, and one word for each command without operands. -/
theorem decodeEncodeRoundTrip : Obligations.DecodeEncodeRoundTrip := by
  intro i hi
  cases i with
  | combine i16 i32 =>
    simp only [Instr.wellFormed, Bool.and_eq_true, decide_eq_true_eq] at hi
    obtain ⟨⟨⟨h1, h2⟩, h3⟩, h4⟩ := hi
    exact decode_encode_combine ⟨h1, h2⟩ ⟨h3, h4⟩
  | load len data => exact decode_encode_load (of_decide_eq_true hi) data
  | nop | reverse | toSingle | toDouble | value | getSign | getExp | getBuf => decide
  | reservedA | reservedB | reservedC | reservedD | reservedE | reservedF => decide

/-- The encoder keeps COMBINE's operand fields and clears LEN and RSVD. -/
theorem encode_combine_fields (c : Word) :
    encode (.combine (i16Field c).toInt (i32Field c).toInt) = commandWord 0x1 0 0 (dataField c) := by
  rw [encode, BitVec.ofInt_toInt, BitVec.ofInt_toInt, i16Field_append_i32Field]

/-- The encoder keeps LOAD's operand fields and clears RSVD. -/
theorem encode_load_fields (c : Word) :
    encode (.load (lenField c).toNat (dataField c)) = commandWord 0x2 (lenField c) 0 (dataField c) := by
  rw [encode, BitVec.ofNat_toNat, BitVec.setWidth_eq]

/-- A command without operands is its opcode and nothing else, and the decoder reads OP alone (R64, R65). -/
theorem encode_eq_of_no_operands {i : Instr} (h1 : opcodeOf i ≠ 0x1#4) (h2 : opcodeOf i ≠ 0x2#4) :
    encode i = commandWord (opcodeOf i) 0 0 0 ∧ liveMask i = 0xF000000000000000 := by
  cases i with
  | combine i16 i32 => exact absurd rfl h1
  | load len data => exact absurd rfl h2
  | nop | reverse | toSingle | toDouble | value | getSign | getExp | getBuf => exact ⟨rfl, rfl⟩
  | reservedA | reservedB | reservedC | reservedD | reservedE | reservedF => exact ⟨rfl, rfl⟩

/-- COMBINE reads OP and DATA (R64). -/
theorem liveMask_combine (i16 i32 : Int) :
    liveMask (.combine i16 i32) = commandWord (BitVec.allOnes 4) 0#4 0#8 (BitVec.allOnes 48) := by
  rw [liveMask]
  decide

/-- LOAD reads all but RSVD (R62, R64). -/
theorem liveMask_load (len : Nat) (data : Bytes6) :
    liveMask (.load len data) = commandWord (BitVec.allOnes 4) (BitVec.allOnes 4) 0#8 (BitVec.allOnes 48) := by
  rw [liveMask]
  decide

/-- Settles O2: the live mask of each command is full in the fields the encoder writes back and empty in the others. -/
theorem encodeDecodeKeepsLiveBits : Obligations.EncodeDecodeKeepsLiveBits := by
  intro c
  by_cases h1 : opField c = 0x1#4
  · rw [decode_combine h1, encode_combine_fields, liveMask_combine, and_commandWord, h1]
    simp only [BitVec.and_allOnes, BitVec.and_zero]
    rfl
  · by_cases h2 : opField c = 0x2#4
    · rw [decode_load h2, encode_load_fields, liveMask_load, and_commandWord, h2]
      simp only [BitVec.and_allOnes, BitVec.and_zero]
      rfl
    · rw [← opcodeOf_decode] at h1 h2
      obtain ⟨hword, hmask⟩ := encode_eq_of_no_operands h1 h2
      rw [hword, hmask, and_opMask, opcodeOf_decode]

/-! ## The opcode map -/

/-- A number shifted to bit 60 is the word with its last four bits as OP (R65). -/
theorem shiftLeft_sixty (x : Word) : x <<< 60 = commandWord (x.setWidth 4) 0 0 0 := by
  apply BitVec.eq_of_toNat_eq
  simp only [commandWord, append_toNat, BitVec.toNat_shiftLeft, Nat.shiftLeft_eq, BitVec.toNat_setWidth,
    BitVec.ofNat_eq_ofNat, BitVec.toNat_ofNat]
  omega

/-- Masking all but OP leaves `x` at bit 60 if and only if the decoded command has that opcode (R65). -/
theorem and_opMask_eq_iff (c x : Word) :
    c &&& 0xF000000000000000 = x <<< 60 ↔ opcodeOf (decode c) = x.setWidth 4 := by
  have mask : ((0xF000000000000000 : Nat) : Word) = 0xF000000000000000 := rfl
  rw [mask, and_opMask, shiftLeft_sixty, opcodeOf_decode]
  constructor
  · intro h
    have := congrArg opField h
    rwa [opField_commandWord, opField_commandWord] at this
  · intro h
    rw [h]

/-- Settles O3: OP under the mask is the opcode of the decoded command, and the opcodes of the commands differ. -/
theorem opcodeMapSelectsCommand : Obligations.OpcodeMapSelectsCommand := by
  intro c
  simp only [and_opMask_eq_iff]
  generalize decode c = i
  cases i <;> simp [opcodeOf]

/-- Settles O4: the fields of LOAD and COMBINE, and OP alone for the rest. -/
theorem dataFieldReading : Obligations.DataFieldReading :=
  ⟨fun c hc => ⟨dataField c, decode_load hc, fun i _ => byteOf_dataField c i⟩, fun _ hc => decode_combine hc,
    fun _ _ h h1 h2 => decode_eq_of_opField_eq h h1 h2⟩

/-! ## RSVD -/

/-- Words that agree in their top bytes and in DATA decode to one command (R63). -/
theorem decode_eq_of_eq_outside_rsvd {c c' : Word} (htop : c.extractLsb' 56 8 = c'.extractLsb' 56 8)
    (hdata : dataField c = dataField c') : decode c = decode c' := by
  rw [← opField_append_lenField, ← opField_append_lenField] at htop
  have ho := congrArg (BitVec.extractLsb' 4 4) htop
  have hl := congrArg (BitVec.extractLsb' 0 4) htop
  rw [BitVec.extractLsb'_append_eq_left, BitVec.extractLsb'_append_eq_left] at ho
  rw [BitVec.extractLsb'_append_eq_right, BitVec.extractLsb'_append_eq_right] at hl
  exact decode_eq_of_fields_eq ho hl hdata

/-- An edge sees a command word only through the decoder. -/
theorem edge_eq_of_decode_eq {c c' : Word} (h : decode c = decode c') (rst valid : Bool) (s : State) :
    edge ⟨rst, valid, c⟩ s = edge ⟨rst, valid, c'⟩ s := by
  cases rst with
  | true => rw [edge_of_reset rfl, edge_of_reset rfl]
  | false =>
    cases valid with
    | true => rw [edge_of_command rfl rfl, edge_of_command rfl rfl, h]
    | false => rw [edge_of_idle rfl rfl, edge_of_idle rfl rfl]

/-- Settles O5: the two words decode to one command, and the edge sees no more of them. -/
theorem reservedFieldIsIgnored : Obligations.ReservedFieldIsIgnored := by
  intro c c' htop hdata s rst valid rest
  rw [step_of_inputs (p := ⟨rst, valid, c⟩) rfl, step_of_inputs (p := ⟨rst, valid, c'⟩) rfl]
  exact edge_eq_of_decode_eq (decode_eq_of_eq_outside_rsvd htop hdata) rst valid _

/-- Settles O6: each field holds its own range. -/
theorem decodedCommandIsWellFormed : Obligations.DecodedCommandIsWellFormed := decode_wellFormed

/-- Settles O7: the decoder computes each of the seven commands. -/
theorem specExampleWordsDecode : Obligations.SpecExampleWordsDecode := by
  unfold Obligations.SpecExampleWordsDecode
  decide

end Sys2Proof.Proofs
end

section
/-!
SUPPORT. Proofs of the statements about the host: the commands it issues for the source's calls, and the words of the
assembler's forms and pseudo-instructions (spec/30_encoding.md R62, R69, R70; spec/70_reset_and_hazards.md R157).
-/

namespace Sys2Proof.Proofs

open Sys2Proof.Machine Sys2Proof.Laws Sys2Proof.Safety

variable {i : Instr} {i16 i32 : Int}

/-! ## from_bytes -/

/-- The host's LEN fits its field (R62). -/
theorem lenFor_le (n : Nat) : lenFor n ≤ 15 := by
  unfold lenFor
  split <;> omega

/-- The host's LEN is 6 for six bytes alone: the lengths it saturates give 15 (R62). -/
theorem lenFor_eq_six_iff (n : Nat) : lenFor n = 6 ↔ n = 6 := by
  unfold lenFor
  split <;> omega

/-- A sequence of six bytes, as its bytes. -/
theorem eq_six_bytes_of_length {bs : List Byte} (h : bs.length = 6) :
    ∃ b0 b1 b2 b3 b4 b5, bs = [b0, b1, b2, b3, b4, b5] := by
  match bs, h with
  | [b0, b1, b2, b3, b4, b5], _ => exact ⟨b0, b1, b2, b3, b4, b5, rfl⟩

/-- The bytes of six joined bytes are those bytes in order (R8). -/
theorem bytesOf_ofBytes (b0 b1 b2 b3 b4 b5 : Byte) :
    bytesOf (ofBytes b0 b1 b2 b3 b4 b5) = [b0, b1, b2, b3, b4, b5] := by
  obtain ⟨h0, h1, h2, h3, h4, h5⟩ := byteOf_ofBytes b0 b1 b2 b3 b4 b5
  rw [bytesOf, h0, h1, h2, h3, h4, h5]

/-- Settles O38: the host's LEN is 6 for six bytes alone, and LOAD checks nothing else. -/
theorem loadAcceptsSixBytesOnly : Obligations.LoadAcceptsSixBytesOnly := by
  intro bs filler s
  refine ⟨decide_eq_true (lenFor_le bs.length), ?_⟩
  by_cases hlen : bs.length = 6
  · obtain ⟨b0, b1, b2, b3, b4, b5, rfl⟩ := eq_six_bytes_of_length hlen
    exact ⟨_, exec_load_six (ofBytes b0 b1 b2 b3 b4 b5) s, fun _ => ⟨rfl, rfl, bytesOf_ofBytes b0 b1 b2 b3 b4 b5⟩,
      fun h => absurd hlen h⟩
  · exact ⟨_, exec_load_other (mt (lenFor_eq_six_iff _).1 hlen) _ s, fun h => absurd h hlen, fun _ => rfl⟩

/-! ## The forms of a command -/

/-- A command that fits its fields assembles to its word (R69). -/
theorem assembleInstr_of_wellFormed (h : i.wellFormed = true) : assembleInstr i = some (encode i) := if_pos h

/-- A command with an operand outside its field is refused (R69). -/
theorem assembleInstr_of_not_wellFormed (h : i.wellFormed ≠ true) : assembleInstr i = none := if_neg h

/-- COMBINE's fields hold 16 and 32 bits of two's complement (R64). -/
theorem wellFormed_combine_iff : (Instr.combine i16 i32).wellFormed = true ↔
    -32768 ≤ i16 ∧ i16 ≤ 32767 ∧ -2147483648 ≤ i32 ∧ i32 ≤ 2147483647 := by
  simp [Instr.wellFormed, and_assoc]

/-- LOAD's byte count is a 4-bit field (R62). -/
theorem wellFormed_load_iff (len : Nat) (data : Bytes6) : (Instr.load len data).wellFormed = true ↔ len ≤ 15 :=
  decide_eq_true_iff

/-- LEN and RSVD are `C[59:48]` (R60). -/
theorem lenField_append_rsvdField (c : Word) : lenField c ++ rsvdField c = c.extractLsb' 48 12 :=
  BitVec.extractLsb'_append_extractLsb'_eq_extractLsb' rfl

/-- COMBINE's word has LEN and RSVD 0 (R69). -/
theorem encode_combine_unused (i16 i32 : Int) : (encode (.combine i16 i32)).extractLsb' 48 12 = 0#12 := by
  rw [encode, ← lenField_append_rsvdField, lenField_commandWord, rsvdField_commandWord]
  decide

/-- LOAD's word has RSVD 0 (R69). -/
theorem encode_load_unused (len : Nat) (data : Bytes6) : (encode (.load len data)).extractLsb' 48 8 = 0#8 :=
  rsvdField_commandWord _ _ _ _

/-- Settles O51: a form is refused when its command does not fit, and otherwise gives the command's word, which decodes
to it. -/
theorem assemblerFormsDecode : Obligations.AssemblerFormsDecode := by
  refine ⟨by decide, fun i16 i32 => ⟨fun h => ?_, fun h => ?_⟩, fun n b0 b1 b2 b3 b4 b5 => ⟨fun h => ?_, fun h => ?_, rfl⟩,
    fun _ => rfl⟩
  · have hw := wellFormed_combine_iff.2 h
    exact ⟨_, by rw [assemble, assembleInstr_of_wellFormed hw]; rfl, decodeEncodeRoundTrip _ hw,
      encode_combine_unused i16 i32⟩
  · rw [assemble, assembleInstr_of_not_wellFormed (mt wellFormed_combine_iff.1 h)]
    rfl
  · have hw := (wellFormed_load_iff n (ofBytes b0 b1 b2 b3 b4 b5)).2 h
    exact ⟨_, by rw [assemble, assembleInstr_of_wellFormed hw]; rfl, decodeEncodeRoundTrip _ hw,
      encode_load_unused n _⟩
  · rw [assemble, assembleInstr_of_not_wellFormed (mt (wellFormed_load_iff n _).1 (by omega))]
    rfl

/-! ## The pseudo-instructions -/

/-- The check of COMBINE's integers, as their declared ranges (R81, R82). -/
theorem inRange_iff : (int16InRange i16 && int32InRange i32) = true ↔
    -32767 ≤ i16 ∧ i16 ≤ 32767 ∧ -2147483648 ≤ i32 ∧ i32 ≤ 2147483647 := by
  simp [int16InRange, int32InRange, and_assoc]

/-- COMBINE of integers in their declared ranges (R80). -/
theorem exec_combine_inRange (h : (int16InRange i16 && int32InRange i32) = true) (s : State) :
    exec (.combine i16 i32) s = .next (respond .ok ((res48 i16 i32).setWidth 64) s) := by
  have hr : combineResult i16 i32 = .ok ((res48 i16 i32).setWidth 64) := if_pos h
  rw [exec, execCombine, hr]
  rfl

/-- A LOAD of six bytes is one word, which decodes to it (R90). -/
theorem decode_encode_load_six (data : Bytes6) : decode (encode (.load 6 data)) = .load 6 data :=
  decodeEncodeRoundTrip _ rfl

/-- The word of LOAD with COMBINE's bytes: OP and LEN, RSVD 0, then `i32` and `i16` (R70). -/
theorem encode_load_res48 (i16 i32 : Int) :
    encode (.load 6 (res48 i16 i32)) = 0x26#8 ++ 0#8 ++ BitVec.ofInt 32 i32 ++ BitVec.ofInt 16 i16 := by
  apply BitVec.eq_of_toNat_eq
  simp only [encode, commandWord, res48, tc32, tc16, append_toNat, BitVec.toNat_ofNat, BitVec.ofNat_eq_ofNat]
  omega

/-- Settles O53: LOAD does not see COMBINE's response, so after COMBINE it leaves what the assembled LOAD leaves. -/
theorem pseudoInstructionsExpand : Obligations.PseudoInstructionsExpand := by
  refine ⟨fun b0 b1 b2 b3 b4 b5 => ⟨_, _, rfl, rfl, by decide, rfl⟩, fun i16 i32 s => ⟨fun h => ?_, fun h => ?_⟩⟩
  · rw [← inRange_iff] at h
    have hpair : assemblePair i16 i32 = some (encode (.load 6 (res48 i16 i32))) := if_pos h
    have hdata : ((res48 i16 i32).setWidth 64).extractLsb' 0 48 = res48 i16 i32 := by
      rw [BitVec.extractLsb'_setWidth_of_le (by decide), BitVec.extractLsb'_eq_self]
    refine ⟨_, _, _, _, by rw [assemble, hpair]; rfl, rfl, by decide, by rw [assemble, hpair]; rfl,
      encode_load_res48 i16 i32, exec_combine_inRange h s, exec_load_six _ _, ?_⟩
    rw [decode_encode_load_six, respond_rspData, hdata, ← exec_respond, exec_load_six]
  · have hpair : assemblePair i16 i32 = none := if_neg (mt inRange_iff.1 h)
    constructor <;> rw [assemble, hpair] <;> rfl

end Sys2Proof.Proofs
end

section
/-!
SUPPORT. Proofs of the statement about assembler text: what the reader makes of the text of each form, of letters of either
case and of comments (spec/30_encoding.md R69, R70).
-/

namespace Sys2Proof.Proofs

open Sys2Proof.Machine Sys2Proof.Laws

variable {m t : List Char} {x y : Int}

/-! ## A line, by its mnemonic and operands -/

/-- A line that is empty but for blanks and a comment gives no word (log entry 9). -/
theorem assembleText_of_empty (h : trimBlanks (dropComment t) = []) : assembleText t = some [] := by
  simp [assembleText, h]

/-- A line that is not empty is read as a mnemonic in capitals and its operands (R69). -/
theorem assembleText_of_ne_nil (h : trimBlanks (dropComment t) ≠ []) :
    assembleText t =
      (readForm (capitals ((trimBlanks (dropComment t)).takeWhile fun c => !isBlank c))
        (operands ((trimBlanks (dropComment t)).dropWhile fun c => !isBlank c))).bind assemble := by
  unfold assembleText
  split
  · contradiction
  · dsimp only
    cases readForm _ _ <;> rfl

/-! ## The text of each form -/

/-- The text of a form with two integers assembles as the form with those integers. -/
theorem assembleText_pairText {mk : Int → Int → AsmLine} (hm : PlainText m)
    (hform : ∀ ops, readForm (capitals m) ops = readPair mk ops) (h : PairText m x y t) :
    assembleText t = assemble (mk x y) := by
  obtain ⟨gap, a, b, ha, hb, rfl⟩ := h
  rw [assembleText_operands m gap hm (List.forall_mem_cons.2 ⟨plainText_intText ha, by simp [plainText_intText hb]⟩),
    hform, readPair_intText mk ha hb, Option.bind_some]

/-- The texts of bytes are plain. -/
theorem plainText_of_forall₂_hexText {bs : List Byte} {ts : List (List Char)}
    (h : List.Forall₂ (fun (b : Byte) u => HexText b.toNat u) bs ts) : ∀ u ∈ ts, PlainText u := by
  induction h with
  | nil => simp
  | cons hb _ ih => exact List.forall_mem_cons.2 ⟨plainText_hexText hb, ih⟩

/-- The text of a form with six bytes assembles as the form with those bytes. -/
theorem assembleText_bytesText {mk : Byte → Byte → Byte → Byte → Byte → Byte → AsmLine} {b0 b1 b2 b3 b4 b5 : Byte}
    (hm : PlainText m) (hform : ∀ ops, readForm (capitals m) ops = readSix mk ops)
    (h : BytesText m [b0, b1, b2, b3, b4, b5] t) : assembleText t = assemble (mk b0 b1 b2 b3 b4 b5) := by
  obtain ⟨gap, ts, hts, rfl⟩ := h
  obtain ⟨u, us, -, -, rfl⟩ := List.forall₂_cons_left_iff.1 hts
  rw [assembleText_operands m gap hm (plainText_of_forall₂_hexText hts), hform, readSix_hexText mk hts, Option.bind_some]

/-- The text of a raw word assembles as the word. -/
theorem assembleText_wordText {c : Word} {h : List Char} (hc : HexText c.toNat h) :
    assembleText (['.', 'W', 'O', 'R', 'D', ' '] ++ h) = assemble (.word c) := by
  have hform : readForm (capitals ['.', 'W', 'O', 'R', 'D']) [h] = readRaw [h] := rfl
  calc assembleText (['.', 'W', 'O', 'R', 'D'] ++ ' ' :: commaSeparated 0 [h])
      = (readForm (capitals ['.', 'W', 'O', 'R', 'D']) [h]).bind assemble :=
        assembleText_operands _ 0 (by simp [PlainText, Plain, isBlank]) (by simp [plainText_hexText hc])
    _ = assemble (.word c) := by rw [hform, readRaw, readWord_hexText hc]; rfl

/-- The mnemonic of LOAD.L<n> is plain. -/
theorem plainText_loadLen (n : Nat) : PlainText (['L', 'O', 'A', 'D', '.', 'L'] ++ Nat.toDigits 10 n) := by
  obtain ⟨-, hprefix⟩ : PlainText ['L', 'O', 'A', 'D', '.', 'L'] := by
    simp [PlainText, Plain, isBlank]
  exact ⟨by simp, List.forall_mem_append.2 ⟨hprefix, (plainText_decimal n).2⟩⟩

/-- The mnemonic of LOAD.L<n> selects LOAD with the byte count `n`: no other mnemonic begins with `LOAD.` (R69). -/
theorem readForm_loadLen (n : Nat) (ops : List (List Char)) :
    readForm (capitals (['L', 'O', 'A', 'D', '.', 'L'] ++ Nat.toDigits 10 n)) ops = readSix (.loadLen n) ops := by
  have hm : capitals (['L', 'O', 'A', 'D', '.', 'L'] ++ Nat.toDigits 10 n) =
      'L' :: 'O' :: 'A' :: 'D' :: '.' :: 'L' :: capitals (Nat.toDigits 10 n) := rfl
  have hlen : readLoadLen ('L' :: 'O' :: 'A' :: 'D' :: '.' :: 'L' :: capitals (Nat.toDigits 10 n)) = some n := by
    rw [readLoadLen, readDigits_capitals, readDigits_eq Nat.toDigits_ne_nil,
      digitsFrom_toDigits (by decide) (by decide)]
  rw [hm]
  simp [readForm, hlen]

/-- The text of a line assembles as the line. -/
theorem assembleText_lineText (l : AsmLine) (h : LineText l t) : assembleText t = assemble l := by
  cases l with
  | nop | reverse | toSingle | toDouble | value | getSign | getExp | getBuf =>
    rw [LineText] at h
    subst h
    decide
  | combine | loadPair | loadPairRev => exact assembleText_pairText (by simp [PlainText, Plain, isBlank]) (fun _ => rfl) h
  | load | loadRev => exact assembleText_bytesText (by simp [PlainText, Plain, isBlank]) (fun _ => rfl) h
  | loadLen n => exact assembleText_bytesText (plainText_loadLen n) (readForm_loadLen n) h
  | word c =>
    obtain ⟨u, hu, rfl⟩ := h
    exact assembleText_wordText hu

/-! ## Letters of either case -/

/-- The capitals of capitals are the capitals. -/
theorem capitals_capitals (t : List Char) : capitals (capitals t) = capitals t := by
  simp

/-- The number of operands does not depend on their letters. -/
theorem readNone_capitals (l : AsmLine) (ops : List (List Char)) : readNone l (ops.map capitals) = readNone l ops := by
  cases ops <;> rfl

/-- Integers are read alike in either case. -/
theorem readPair_capitals (mk : Int → Int → AsmLine) (ops : List (List Char)) :
    readPair mk (ops.map capitals) = readPair mk ops := by
  match ops with
  | [a, b] => simp only [List.map_cons, List.map_nil, readPair, readInt_capitals]
  | [] | [_] | _ :: _ :: _ :: _ => rfl

/-- Bytes are read alike in either case. -/
theorem readSix_capitals (mk : Byte → Byte → Byte → Byte → Byte → Byte → AsmLine) (ops : List (List Char)) :
    readSix mk (ops.map capitals) = readSix mk ops := by
  match ops with
  | [a, b, c, d, e, f] => simp only [List.map_cons, List.map_nil, readSix, readByte_capitals]
  | [] | [_] | [_, _] | [_, _, _] | [_, _, _, _] | [_, _, _, _, _] | _ :: _ :: _ :: _ :: _ :: _ :: _ :: _ => rfl

/-- A raw word is read alike in either case. -/
theorem readRaw_capitals (ops : List (List Char)) : readRaw (ops.map capitals) = readRaw ops := by
  match ops with
  | [a] => simp only [List.map_cons, List.map_nil, readRaw, readWord_capitals]
  | [] | _ :: _ :: _ => rfl

/-- A form's operands are read alike in either case. -/
theorem readForm_capitals (m : List Char) (ops : List (List Char)) :
    readForm m (ops.map capitals) = readForm m ops := by
  simp only [readForm, readNone_capitals, readPair_capitals, readSix_capitals, readRaw_capitals]

/-- A line in capitals assembles as the line (R69; for numbers log entry 9). -/
theorem assembleText_capitals (t : List Char) : assembleText (capitals t) = assembleText t := by
  have htrim : trimBlanks (dropComment (capitals t)) = capitals (trimBlanks (dropComment t)) := by
    rw [dropComment_capitals, trimBlanks_capitals]
  have notBlank (c : Char) : (!isBlank c.toUpper) = !isBlank c := by rw [isBlank_toUpper]
  by_cases h : trimBlanks (dropComment t) = []
  · rw [assembleText_of_empty h, assembleText_of_empty (by rw [htrim, h]; rfl)]
  · rw [assembleText_of_ne_nil h, assembleText_of_ne_nil (by simpa [htrim] using h), htrim,
      takeWhile_capitals notBlank, dropWhile_capitals notBlank, capitals_capitals, operands_capitals, readForm_capitals]

/-! ## Comments -/

/-- The first semicolon ends the line (R69). -/
theorem dropComment_append_comment (t comment : List Char) : dropComment (t ++ ';' :: comment) = dropComment t := by
  induction t with
  | nil => rfl
  | cons c cs ih => rw [List.cons_append, dropComment, dropComment, ih]

/-- Settles O52: the reader inverts the text of each form, reads capitals alike, and stops at a semicolon. -/
theorem assemblerTextCaseAndComments : Obligations.AssemblerTextCaseAndComments :=
  ⟨fun l _ h => assembleText_lineText l h, assembleText_capitals, fun t comment => by
    rw [assembleText, assembleText, dropComment_append_comment]⟩

end Sys2Proof.Proofs
end

section
/-!
SUPPORT. Proofs of the statements about the Reassembler: the word COMBINE answers, its bytes, and the range check
(spec/40_reassembler.md R80 to R84).
-/

namespace Sys2Proof.Proofs

open Sys2Proof.Machine Sys2Proof.Laws Sys2Proof.Safety

variable {i16 i32 : Int}

/-! ## COMBINE in and out of its range -/

/-- COMBINE of an integer outside its declared range (R81). -/
theorem exec_combine_outOfRange (h : (int16InRange i16 && int32InRange i32) ≠ true) (s : State) :
    exec (.combine i16 i32) s = .next (raise .range s) := by
  have hr : combineResult i16 i32 = .error .range := if_neg h
  rw [exec, execCombine, hr]
  rfl

/-- One response answers a COMBINE, whatever the state (R84). -/
theorem exec_combine_responds (i16 i32 : Int) : ∃ st d, ∀ s, exec (.combine i16 i32) s = .next (respond st d s) := by
  by_cases h : (int16InRange i16 && int32InRange i32) = true
  · exact ⟨_, _, exec_combine_inRange h⟩
  · exact ⟨_, _, exec_combine_outOfRange h⟩

/-- Among integers the fields hold, the check fails for the 16-bit integer -32768 alone (R81, R82). -/
theorem inRange_iff_of_wellFormed (h : (Instr.combine i16 i32).wellFormed = true) :
    (int16InRange i16 && int32InRange i32) = true ↔ i16 ≠ -32768 := by
  rw [wellFormed_combine_iff] at h
  rw [inRange_iff]
  omega

/-- Settles O30: one response answers the COMBINE in both states. -/
theorem combineIgnoresTheDecoder : Obligations.CombineIgnoresTheDecoder := by
  intro i16 i32 s s'
  obtain ⟨st, d, h⟩ := exec_combine_responds i16 i32
  exact ⟨_, _, h s, h s', rfl⟩

/-! ## The word COMBINE answers -/

/-- The integer of I16 is -32768 for 0x8000 alone (R81). -/
theorem toInt_i16Field_eq_iff (c : Word) : (i16Field c).toInt = -32768 ↔ i16Field c = 0x8000#16 := by
  have lowest : (0x8000#16).toInt = -32768 := by decide
  rw [← lowest, BitVec.toInt_inj]

/-- The result for a word's operands is made of its fields (R80). -/
theorem res48_of_fields (c : Word) :
    (res48 (i16Field c).toInt (i32Field c).toInt).setWidth 64 = 0#16 ++ i32Field c ++ i16Field c := by
  rw [res48, tc32, tc16, BitVec.ofInt_toInt, BitVec.ofInt_toInt, BitVec.setWidth_eq_append (by decide),
    BitVec.append_assoc]

/-- Settles O28: the decoded operands fit their fields, so the check fails for I16 = 0x8000 alone. -/
theorem combinePacksItsWord : Obligations.CombinePacksItsWord := by
  intro c s hop
  have hdec : decode c = .combine (i16Field c).toInt (i32Field c).toInt := decode_combine hop
  have hrange := (inRange_iff_of_wellFormed (hdec ▸ decode_wellFormed c)).trans (toInt_i16Field_eq_iff c).not
  rw [hdec]
  refine ⟨fun h => ?_, fun h => ?_⟩
  · exact exec_combine_outOfRange (fun hin => hrange.1 hin h) s
  · rw [exec_combine_inRange (hrange.2 h), res48_of_fields]
    rfl

/-! ## The bytes of the result -/

/-- The low 48 bits of a buffer widened to a response are the buffer. -/
theorem extractLsb'_setWidth_buffer (w : Bytes6) : (w.setWidth 64).extractLsb' 0 48 = w := by
  rw [BitVec.extractLsb'_setWidth_of_le (by decide), BitVec.extractLsb'_eq_self]

/-- Eight bits of a two's-complement pattern, from bit `k` (R9). -/
theorem byte_of_ofInt (w k : Nat) (x : Int) :
    (((BitVec.ofInt w x).extractLsb' k 8).toNat : Int) = x % 2 ^ w / 2 ^ k % 256 := by
  have hmod : ((BitVec.ofInt w x).toNat : Int) = x % 2 ^ w := by
    rw [BitVec.toNat_ofInt, Int.toNat_of_nonneg (Int.emod_nonneg _ (by positivity)), Nat.cast_pow, Nat.cast_ofNat]
  rw [BitVec.extractLsb'_toNat, Nat.shiftRight_eq_div_pow]
  push_cast [hmod]
  rfl

/-- Bytes 0 to 3 of the result are cut from the 32-bit integer (R83). -/
theorem byteOf_res48_of_lt_four {j : Nat} (hj : j < 4) :
    byteOf (res48 i16 i32) j = (BitVec.ofInt 32 i32).extractLsb' (24 - 8 * j) 8 := by
  have hstart : 40 - 8 * j - 16 = 24 - 8 * j := by omega
  rw [byteOf, res48, BitVec.extractLsb'_append_eq_of_le (by omega), hstart, tc32]

/-- Bytes 4 and 5 of the result are cut from the 16-bit integer (R83). -/
theorem byteOf_res48_four_add {j : Nat} (hj : j < 2) :
    byteOf (res48 i16 i32) (4 + j) = (BitVec.ofInt 16 i16).extractLsb' (8 - 8 * j) 8 := by
  have hstart : 40 - 8 * (4 + j) = 8 - 8 * j := by omega
  rw [byteOf, res48, hstart, BitVec.extractLsb'_append_eq_of_add_le (by omega), tc16]

/-- Settles O29: each byte of the result is cut from one integer's pattern. -/
theorem combineResultIsBigEndian : Obligations.CombineResultIsBigEndian := by
  intro i16 i32 s h1 h2 h3 h4
  refine ⟨_, exec_combine_inRange (inRange_iff.2 ⟨h1, h2, h3, h4⟩) s, rfl, fun j hj => ?_, fun j hj => ?_⟩
  · rw [respond_rspData, extractLsb'_setWidth_buffer, byteOf_res48_of_lt_four hj, byte_of_ofInt]
  · rw [respond_rspData, extractLsb'_setWidth_buffer, byteOf_res48_four_add hj, byte_of_ofInt]

/-! ## Integers of any size -/

/-- The host issues the COMBINE of integers that fit their fields (R157). -/
theorem combineCommand_of_wellFormed (h : (Instr.combine i16 i32).wellFormed = true) :
    combineCommand i16 i32 = some (.combine i16 i32) := if_pos (wellFormed_combine_iff.1 h)

/-- The host issues no COMBINE of an integer its field cannot hold (R81, R82). -/
theorem combineCommand_of_not_wellFormed (h : (Instr.combine i16 i32).wellFormed ≠ true) :
    combineCommand i16 i32 = none := if_neg (mt wellFormed_combine_iff.2 h)

/-- Settles O31: what fits the fields is issued, and of that -32768 alone fails the check. -/
theorem rangeCheckForAllIntegers : Obligations.RangeCheckForAllIntegers := by
  refine fun i16 i32 s => ⟨fun h => ?_, fun h => ?_, fun h => ?_⟩
  · obtain ⟨hlow, hhigh, h32⟩ := h
    have hw := wellFormed_combine_iff.2 ⟨by omega, hhigh, h32⟩
    exact ⟨_, _, combineCommand_of_wellFormed hw, exec_combine_inRange (inRange_iff.2 ⟨hlow, hhigh, h32⟩) s, rfl⟩
  · obtain ⟨rfl, h32⟩ := h
    have hw := wellFormed_combine_iff.2 ⟨le_rfl, by decide, h32⟩
    exact ⟨_, combineCommand_of_wellFormed hw,
      exec_combine_outOfRange (fun hin => (inRange_iff_of_wellFormed hw).1 hin rfl) s⟩
  · refine combineCommand_of_not_wellFormed (mt wellFormed_combine_iff.1 ?_)
    omega

end Sys2Proof.Proofs
end

section
/-!
SUPPORT. Proofs of the statements about the Decoder's buffer commands LOAD, REVERSE, GETSIGN, GETEXP and GETBUF
(spec/41_decoder_buffer.md R90 to R95).
-/

namespace Sys2Proof.Proofs

open Sys2Proof.Machine Sys2Proof.Laws Sys2Proof.Safety

variable {s : State}

/-! ## LOAD -/

/-- Settles O32: the byte count 6 is the only check. -/
theorem loadReplacesTheBuffer : Obligations.LoadReplacesTheBuffer := by
  refine fun len data s => ⟨?_, fun hlen => exec_load_other hlen data s⟩
  rintro rfl
  exact exec_load_six data s

/-! ## REVERSE -/

/-- SIGN caches bit 7 of byte 0 (R22). -/
theorem signOf_eq_byteOf (w : Bytes6) : signOf w = (byteOf w 0).extractLsb' 7 1 := by
  apply BitVec.eq_of_toNat_eq
  rw [signOf_toNat, BitVec.extractLsb'_toNat, Nat.shiftRight_eq_div_pow, byteOf_toNat]
  omega

/-- EXP caches byte 5 (R23). -/
theorem expOf_eq_byteOf (w : Bytes6) : expOf w = byteOf w 5 := rfl

/-- The sign bit of the reversed buffer is bit 7 of the old byte 5 (R91). -/
theorem signOf_reverseBytes (w : Bytes6) : signOf (reverseBytes w) = (byteOf w 5).extractLsb' 7 1 := by
  rw [signOf_eq_byteOf, byteOf_reverseBytes w (by decide)]

/-- The exponent byte of the reversed buffer is the old byte 0 (R91). -/
theorem expOf_reverseBytes (w : Bytes6) : expOf (reverseBytes w) = byteOf w 0 := by
  rw [expOf_eq_byteOf, byteOf_reverseBytes w (by decide)]

/-- Settles O33: REVERSE writes the reversed bytes with fresh caches, which are cut from the old bytes 5 and 0. -/
theorem reverseSwapsTheBytes : Obligations.ReverseSwapsTheBytes := by
  refine fun s => ⟨fun hv => withBuffer_invalid hv, fun hv => ?_⟩
  refine ⟨reverseBytes s.buf, ?_, rfl, fun _ => byteOf_reverseBytes s.buf⟩
  rw [exec_reverse hv, ← signOf_reverseBytes, ← expOf_reverseBytes]
  rfl

/-- Settles O34: two REVERSEs write the buffer back, and its fresh caches are the ones a coherent state held. -/
theorem reverseIsAnInvolution : Obligations.ReverseIsAnInvolution := by
  intro s hv hc
  obtain ⟨t, ht, hu⟩ := exec_reverse_reverse hv
  obtain ⟨hbuf, hsign, hexp, -⟩ := decoderUnchanged_writeBuf_buf hv hc
  exact ⟨t, _, ht, hu, hbuf, hsign, hexp⟩

/-! ## GETSIGN, GETEXP and GETBUF -/

/-- GETSIGN of a valid buffer (R92). -/
theorem exec_getSign (hv : s.valid = true) : exec .getSign s = .next (respond .ok (s.sign.setWidth 64) s) :=
  withBuffer_valid hv

/-- GETEXP of a valid buffer (R93). -/
theorem exec_getExp (hv : s.valid = true) : exec .getExp s = .next (respond .ok (s.exp.setWidth 64) s) :=
  withBuffer_valid hv

/-- GETBUF of a valid buffer (R94). -/
theorem exec_getBuf (hv : s.valid = true) : exec .getBuf s = .next (respond .ok (s.buf.setWidth 64) s) :=
  withBuffer_valid hv

/-- Settles O35: a read answers behind the NO_BUFFER check; coherent caches are the fields of BUF. -/
theorem decoderReadsRespond : Obligations.DecoderReadsRespond := fun _ =>
  ⟨fun hv => ⟨exec_getSign hv, exec_getExp hv, exec_getBuf hv, fun hc => hc hv⟩,
    fun hv => ⟨withBuffer_invalid hv, withBuffer_invalid hv, withBuffer_invalid hv⟩⟩

end Sys2Proof.Proofs
end

section
/-!
SUPPORT. Proofs of the statements about the mantissas and the conversions TOSINGLE, TODOUBLE and VALUE
(spec/42_decoder_conversions.md R100 to R113).
-/

namespace Sys2Proof.Proofs

open Sys2Proof.Machine Sys2Proof.Laws Sys2Proof.Safety

variable {s : State} {w : Bytes6}

/-! ## The mantissas and the sign of a buffer -/

/-- M23 is made of the bytes 0 to 2 (R100). -/
theorem mant23_eq_bytes (w : Bytes6) : mant23 w = (byteOf w 0).extractLsb' 0 7 ++ byteOf w 1 ++ byteOf w 2 := by
  apply BitVec.eq_of_toNat_eq
  simp only [append_toNat, mant23_toNat, byteOf_toNat, BitVec.extractLsb'_toNat, Nat.shiftRight_zero]
  omega

/-- M39 is M23 and the bytes 3 and 4 (R100, R101). -/
theorem mant39_eq_mant23_bytes (w : Bytes6) : mant39 w = mant23 w ++ byteOf w 3 ++ byteOf w 4 := by
  apply BitVec.eq_of_toNat_eq
  simp only [append_toNat, mant39_toNat, mant23_toNat, byteOf_toNat]
  omega

/-- The 13 zeros of F52 are a left shift (R101). -/
theorem frac52_eq_shiftLeft (w : Bytes6) : frac52 w = (mant39 w).setWidth 52 <<< 13 := by
  rw [BitVec.shiftLeft_eq_concat_of_lt (by decide), BitVec.extractLsb'_setWidth_of_le (by decide),
    BitVec.extractLsb'_eq_self]
  rfl

/-- Settles O9: the byte views of the mantissas, and their definitions. -/
theorem mantissasFromBytes : Obligations.MantissasFromBytes := fun w =>
  ⟨mant23_eq_bytes w, rfl, by rw [mant39_eq_mant23_bytes, mant23_eq_bytes], rfl, frac52_eq_shiftLeft w⟩

/-- The number of F52 (R101). -/
theorem frac52_toNat (w : Bytes6) : (frac52 w).toNat = (mant39 w).toNat * 2 ^ 13 := by
  rw [frac52, append_toNat, BitVec.toNat_ofNat, Nat.zero_mod, Nat.add_zero]

/-- The sign VALUE computes from byte 0 is the sign bit (R22, R108). -/
theorem signOf_eq_ofBool (w : Bytes6) : signOf w = BitVec.ofBool (valueNegative w) := by
  apply BitVec.eq_of_toNat_eq
  rw [signOf_toNat, BitVec.toNat_ofBool, valueNegative, byteOf_toNat, Bool.toNat, Bool.cond_decide]
  split <;> omega

/-- The sign factor of a buffer is that of its sign bit. -/
theorem signFactor_eq_signOfBool (w : Bytes6) : signFactor w = signOfBool (valueNegative w) := by
  rw [signFactor, signOf_eq_ofBool]
  cases valueNegative w <;> rfl

/-! ## What the three conversions answer -/

/-- TOSINGLE of exponent byte 0 (R103). -/
theorem exec_toSingle_zero (hv : s.valid = true) (he : s.exp = 0#8) : exec .toSingle s = .next (respond .ok 0 s) := by
  rw [exec, execToSingle, withBuffer_valid hv, singleResult, if_pos he]
  rfl

/-- TOSINGLE of exponent byte 1 (R104). -/
theorem exec_toSingle_one (hv : s.valid = true) (he : s.exp = 1#8) :
    exec .toSingle s = .next (raise .underflow s) := by
  rw [exec, execToSingle, withBuffer_valid hv, singleResult, if_neg (by simp [he]), if_pos he]
  rfl

/-- TOSINGLE of any other exponent byte (R102, R105, R107). -/
theorem exec_toSingle_pattern (hv : s.valid = true) (h0 : s.exp ≠ 0#8) (h1 : s.exp ≠ 1#8) :
    exec .toSingle s = .next (respond .ok ((singlePattern s.sign s.exp (mant23 s.buf)).setWidth 64) s) := by
  rw [exec, execToSingle, withBuffer_valid hv, singleResult, if_neg h0, if_neg h1, Config.exp255,
    raisesInfinity_passthrough]
  rfl

/-- TODOUBLE of exponent byte 0 (R106). -/
theorem exec_toDouble_zero (hv : s.valid = true) (he : s.exp = 0#8) : exec .toDouble s = .next (respond .ok 0 s) := by
  rw [exec, execToDouble, withBuffer_valid hv, doubleResult, if_pos he]
  rfl

/-- TODOUBLE of any other exponent byte (R106, R107). -/
theorem exec_toDouble_pattern (hv : s.valid = true) (h0 : s.exp ≠ 0#8) :
    exec .toDouble s = .next (respond .ok (doublePattern s.sign s.exp (frac52 s.buf)) s) := by
  rw [exec, execToDouble, withBuffer_valid hv, doubleResult, if_neg h0, Config.exp255, raisesInfinity_passthrough]
  rfl

/-- VALUE of a valid buffer (R108). -/
theorem exec_value (hv : s.valid = true) :
    exec .value s = .next (respond .ok (valueResult Config.valueZeroSign s.buf) s) := withBuffer_valid hv

/-- Settles O39: the four cases, the 32-bit pattern widened by 32 zeros. -/
theorem toSingleResponds : Obligations.ToSingleResponds := by
  refine fun s => ⟨fun hv => withBuffer_invalid hv, fun hv => ⟨exec_toSingle_zero hv, exec_toSingle_one hv, ?_⟩⟩
  intro h0 h1
  rw [exec_toSingle_pattern hv h0 h1, BitVec.setWidth_eq_append (by decide)]
  rfl

/-! ## The binary64 pattern -/

/-- The magnitude of a buffer with an exponent byte other than 0: `(1 + M39/2^39) × 2^(EXP-129)` (R109). -/
def bufferMagnitude (w : Bytes6) : ℚ := (1 + ((mant39 w).toNat : ℚ) / 2 ^ 39) * 2 ^ (((expOf w).toNat : ℤ) - 129)

/-- A buffer's value is its magnitude with its sign (R109). -/
theorem real48Value_eq (h0 : expOf w ≠ 0#8) : real48Value w = signFactor w * bufferMagnitude w := by
  rw [real48Value, if_neg h0, bufferMagnitude, mul_assoc]

/-- A byte other than 0 is at least 1. -/
theorem one_le_toNat {e : BitVec 8} (h0 : e ≠ 0#8) : 1 ≤ e.toNat :=
  Nat.one_le_iff_ne_zero.2 fun h => h0 (BitVec.eq_of_toNat_eq h)

/-- The rebias of TODOUBLE does not wrap (R106). -/
theorem doubleExponent_toNat (e : BitVec 8) : (e.setWidth 11 + 894#11).toNat = e.toNat + 894 := by
  have he := e.isLt
  rw [BitVec.toNat_add, BitVec.toNat_setWidth, BitVec.toNat_ofNat]
  omega

/-- The rebias of TOSINGLE does not wrap from exponent byte 2 on (R102). -/
theorem singleExponent_toNat {e : BitVec 8} (he : 2 ≤ e.toNat) : (e - 2#8).toNat = e.toNat - 2 :=
  BitVec.toNat_sub_of_le (BitVec.le_def.2 he)

/-- TODOUBLE's pattern is a normal number with the significand `2^52 + F52` (R10, R106). -/
theorem doublePattern_eq_f64Normal (b : Bool) {e : BitVec 8} (f : BitVec 52) (h0 : e ≠ 0#8) :
    doublePattern (BitVec.ofBool b) e f = f64Normal b (2 ^ 52 + f.toNat) ((e.toNat : ℤ) - 181) := by
  have hpos := one_le_toNat h0
  have he := e.isLt
  have hf := f.isLt
  apply BitVec.eq_of_toNat_eq
  rw [f64Normal, f64Signed_toNat b (by omega), doublePattern, append_toNat, append_toNat, doubleExponent_toNat,
    BitVec.toNat_ofBool]
  omega

/-- For an exponent byte other than 0 TODOUBLE's pattern encodes the buffer's value (R106). -/
theorem doublePattern_encodes (h0 : expOf w ≠ 0#8) :
    Encodes (doublePattern (signOf w) (expOf w) (frac52 w)) (valueNegative w) (bufferMagnitude w) := by
  have hpos := one_le_toNat h0
  have he := (expOf w).isLt
  have hf := (frac52 w).isLt
  have hvalue : bufferMagnitude w = ((2 ^ 52 + (frac52 w).toNat : ℕ) : ℚ) * 2 ^ (((expOf w).toNat : ℤ) - 181) := by
    have hexp : ((expOf w).toNat : ℤ) - 129 = ((expOf w).toNat : ℤ) - 181 + 52 := by ring
    rw [bufferMagnitude, frac52_toNat, hexp, zpow_add₀ two_ne_zero]
    push_cast
    norm_num
    ring
  rw [signOf_eq_ofBool]
  exact .inr ⟨_, _, by omega, by omega, by omega, by omega, hvalue, doublePattern_eq_f64Normal _ _ h0⟩

/-- An encoded value is zero or normal. -/
theorem normal_of_encodes {p : Word} {b : Bool} {x : ℚ} (h : Encodes p b x) : Normal x := by
  obtain ⟨hx, -⟩ | ⟨m, q, h1, h2, h3, h4, hx, -⟩ := h
  · exact .inl hx
  · exact .inr ⟨m, q, h1, h2, h3, h4, hx⟩

/-- The value of an encoding, with its sign (R10). -/
theorem asF64_of_encodes {p : Word} {b : Bool} {x : ℚ} (h : Encodes p b x) : asF64 p = some (signOfBool b * x) := by
  obtain ⟨m, e, hclass, rfl⟩ := h.class
  rw [asF64, hclass, ← mul_assoc]
  rfl

/-- The value of TODOUBLE's pattern is the buffer's value (R106, R109). -/
theorem asF64_doublePattern (h0 : expOf w ≠ 0#8) :
    asF64 (doublePattern (signOf w) (expOf w) (frac52 w)) = some (signFactor w * bufferMagnitude w) := by
  rw [asF64_of_encodes (doublePattern_encodes h0), signFactor_eq_signOfBool]

/-- The pattern with F52 written out (R101, R106). -/
theorem doublePattern_frac52 (sg : BitVec 1) (e : BitVec 8) (w : Bytes6) :
    doublePattern sg e (frac52 w) = sg ++ (e.setWidth 11 + 894#11) ++ mant39 w ++ 0#13 := by
  rw [doublePattern, frac52, BitVec.append_assoc (x₃ := 0#13)]
  rfl

/-- The binary64 +0.0 stands for 0 (R10). -/
theorem asF64_zero : asF64 0#64 = some 0 := by
  have hzero : f64Class 0#64 = .finite false 0 (-1074) := by decide
  rw [asF64, hzero, classValue]
  simp

/-- Settles O42: TODOUBLE's cases; a coherent cache makes its pattern the encoding of the buffer's value. -/
theorem toDoubleResponds : Obligations.ToDoubleResponds := by
  refine fun s => ⟨fun hv => withBuffer_invalid hv, fun hv => ⟨exec_toDouble_zero hv, fun h0 => ?_, fun hc => ?_⟩⟩
  · rw [exec_toDouble_pattern hv h0, doublePattern_frac52]
    rfl
  · obtain ⟨hsign, hexp⟩ := hc hv
    by_cases h0 : s.exp = 0#8
    · refine ⟨_, exec_toDouble_zero hv h0, ?_⟩
      rw [real48Value, if_pos (hexp ▸ h0)]
      exact asF64_zero
    · refine ⟨_, exec_toDouble_pattern hv h0, ?_⟩
      rw [hexp] at h0
      rw [respond_rspData, hsign, hexp, asF64_doublePattern h0, real48Value_eq h0]

/-! ## VALUE -/

/-- VALUE's sign bit is applied exactly (R108). -/
theorem encodes_signed {p : Word} {x : ℚ} (h : Encodes p false x) (b : Bool) :
    Encodes (if b then fneg p else p) b x := by
  cases b with
  | false => simpa using h
  | true => simpa using fneg_encodes h

/-- VALUE's product `2^k × m` is exact where it is zero or normal, the sign bit kept for a zero `m` too (R108, R109). -/
theorem valueResult_encodes {x : ℚ} (hm : Encodes (valueMagnitude w) false x)
    (hx : Normal (2 ^ (((byteOf w 5).toNat : ℤ) - 129) * x)) :
    Encodes (valueResult Config.valueZeroSign w) (valueNegative w) (2 ^ (((byteOf w 5).toNat : ℤ) - 129) * x) := by
  have he := (byteOf w 5).isLt
  have hpow := pow2_encodes (k := ((byteOf w 5).toNat : ℤ) - 129) (by omega) (by omega)
  simpa [valueResult, Config.valueZeroSign] using fmul_encodes hpow (encodes_signed hm (valueNegative w)) hx

/-- VALUE of exponent byte 0 is the zero of the buffer's sign (R108). -/
theorem valueResult_zero (h0 : byteOf w 5 = 0#8) : valueResult Config.valueZeroSign w = signOf w ++ 0#63 := by
  have hm : Encodes (valueMagnitude w) false 0 := by
    rw [valueMagnitude, if_pos h0]
    exact Nat.cast_zero (R := ℚ) ▸ f64OfNat_encodes (n := 0) (by norm_num)
  have hr := valueResult_encodes hm (.inl (mul_zero _))
  rw [mul_zero] at hr
  rw [signOf_eq_ofBool]
  exact hr.unique (.inl ⟨rfl, rfl⟩)

/-- VALUE of any other exponent byte has the bits of TODOUBLE's pattern: both encode the buffer's value (R109). -/
theorem valueResult_pattern (h0 : expOf w ≠ 0#8) :
    valueResult Config.valueZeroSign w = doublePattern (signOf w) (expOf w) (frac52 w) := by
  have hp := doublePattern_encodes h0
  have hproduct : 2 ^ (((byteOf w 5).toNat : ℤ) - 129) * (((2 ^ 39 + (mant39 w).toNat : ℕ) : ℚ) / 2 ^ 39) =
      bufferMagnitude w := by
    rw [bufferMagnitude, expOf_eq_byteOf]
    push_cast
    ring
  have hr := valueResult_encodes (valueMagnitude_encodes h0) (hproduct ▸ normal_of_encodes hp)
  rw [hproduct] at hr
  exact hr.unique hp

/-- Settles O43: every operation of R108 is exact, and a value has one encoding for each sign. -/
theorem valueRespondsExactly : Obligations.ValueRespondsExactly := by
  refine fun s hv => ⟨fun h0 => ?_, fun h0 => ?_⟩
  · rw [exec_value hv, valueResult_zero h0]
    rfl
  · rw [exec_value hv, valueResult_pattern h0, doublePattern_frac52]
    rfl

/-! ## VALUE and TODOUBLE of a coherent buffer -/

/-- VALUE and TODOUBLE are one command on a coherent buffer with an exponent byte other than 0 (R109). -/
theorem exec_value_eq_exec_toDouble (hv : s.valid = true) (hc : CacheCoherent s) (h0 : s.exp ≠ 0#8) :
    exec .value s = exec .toDouble s := by
  obtain ⟨hsign, hexp⟩ := hc hv
  rw [exec_value hv, exec_toDouble_pattern hv h0, hsign, hexp, valueResult_pattern (hexp ▸ h0)]

/-- VALUE of a coherent buffer with exponent byte 0 (R108, R113). -/
theorem exec_value_zero (hv : s.valid = true) (hc : CacheCoherent s) (h0 : s.exp = 0#8) :
    exec .value s = .next (respond .ok (s.sign ++ 0#63) s) := by
  obtain ⟨hsign, hexp⟩ := hc hv
  rw [exec_value hv, valueResult_zero (hexp.symm.trans h0), hsign]

/-- TODOUBLE of a coherent buffer gives the value R109 names. -/
theorem asF64_doublePattern_of_coherent (hv : s.valid = true) (hc : CacheCoherent s) (h0 : s.exp ≠ 0#8) :
    asF64 (doublePattern s.sign s.exp (frac52 s.buf)) =
      some (signFactor s.buf * (1 + ((mant39 s.buf).toNat : ℚ) / 2 ^ 39) * 2 ^ ((s.exp.toNat : ℤ) - 129)) := by
  obtain ⟨hsign, hexp⟩ := hc hv
  rw [hexp] at h0
  rw [hsign, hexp, asF64_doublePattern h0, bufferMagnitude, mul_assoc]

/-- Settles O44: VALUE and TODOUBLE are one command where EXP is not 0; where it is, both zeros are written out. -/
theorem valueAgreesWithToDouble : Obligations.ValueAgreesWithToDouble := by
  intro s hv hc
  by_cases h0 : s.exp = 0#8
  · refine ⟨_, _, exec_value_zero hv hc h0, exec_toDouble_zero hv h0, rfl, rfl, fun h => absurd h0 h, fun _ => ?_⟩
    refine ⟨rfl, fun hs => ?_, fun hs => ?_⟩ <;> rw [respond_rspData, hs] <;> rfl
  · have hd := exec_toDouble_pattern hv h0
    exact ⟨_, _, (exec_value_eq_exec_toDouble hv hc h0).trans hd, hd, rfl, rfl,
      fun _ => ⟨rfl, asF64_doublePattern_of_coherent hv hc h0⟩, fun h => absurd h h0⟩

/-! ## The fields of the results -/

/-- The exponent field of TODOUBLE's pattern (R106). -/
theorem doublePattern_exponentField (sg : BitVec 1) (e : BitVec 8) (f : BitVec 52) :
    ((doublePattern sg e f).extractLsb' 52 11).toNat = e.toNat + 894 := by
  rw [doublePattern, BitVec.extractLsb'_append_eq_of_le (by decide), ← doubleExponent_toNat]
  exact congrArg BitVec.toNat BitVec.extractLsb'_append_eq_right

/-- The low half of a widened binary32 pattern is the pattern (R102). -/
theorem extractLsb'_setWidth_single (p : BitVec 32) : (p.setWidth 64).extractLsb' 0 32 = p := by
  rw [BitVec.extractLsb'_setWidth_of_le (by decide), BitVec.extractLsb'_eq_self]

/-- The exponent field of a binary32 pattern (R10). -/
theorem f32_exponentField (sg : BitVec 1) (e : BitVec 8) (m : BitVec 23) : (sg ++ e ++ m).extractLsb' 23 8 = e := by
  rw [BitVec.extractLsb'_append_eq_of_le (by decide)]
  exact BitVec.extractLsb'_append_eq_right

/-- The exponent field of TOSINGLE's pattern, from exponent byte 2 on (R102). -/
theorem singlePattern_exponentField (sg : BitVec 1) {e : BitVec 8} (he : 2 ≤ e.toNat) (m : BitVec 23) :
    (((singlePattern sg e m).setWidth 64).extractLsb' 23 8).toNat = e.toNat - 2 := by
  rw [BitVec.extractLsb'_setWidth_of_le (by decide), singlePattern, f32_exponentField, singleExponent_toNat he]

/-- An exponent byte other than 0 and 1 is at least 2. -/
theorem two_le_toNat {e : BitVec 8} (h0 : e ≠ 0#8) (h1 : e ≠ 1#8) : 2 ≤ e.toNat := by
  have hpos := one_le_toNat h0
  have hne : e.toNat ≠ 1 := fun h => h1 (BitVec.eq_of_toNat_eq h)
  omega

/-- A zero of either sign, written out (R108). -/
theorem signed_zero_cases (sg : BitVec 1) :
    (sg = 0#1 → sg ++ 0#63 = 0#64) ∧ (sg = 1#1 → sg ++ 0#63 = 0x8000000000000000#64) := by
  refine ⟨?_, ?_⟩ <;> rintro rfl <;> rfl

/-- TODOUBLE's exponent field is neither 0 nor 2047 for an exponent byte other than 0 (R111). -/
theorem doublePattern_exponentField_range (sg : BitVec 1) {e : BitVec 8} (f : BitVec 52) (h0 : e ≠ 0#8) :
    895 ≤ ((doublePattern sg e f).extractLsb' 52 11).toNat ∧
      ((doublePattern sg e f).extractLsb' 52 11).toNat ≤ 1149 := by
  have hpos := one_le_toNat h0
  have he := e.isLt
  rw [doublePattern_exponentField]
  omega

/-- TOSINGLE's exponent field is neither 0 nor 255 for an exponent byte other than 0, 1 and 2 (R111). -/
theorem singlePattern_exponentField_range (sg : BitVec 1) {e : BitVec 8} (m : BitVec 23) (h0 : e ≠ 0#8) (h1 : e ≠ 1#8)
    (h2 : e ≠ 2#8) :
    1 ≤ (((singlePattern sg e m).setWidth 64).extractLsb' 23 8).toNat ∧
      (((singlePattern sg e m).setWidth 64).extractLsb' 23 8).toNat ≤ 253 := by
  have htwo := two_le_toNat h0 h1
  have hne : e.toNat ≠ 2 := fun h => h2 (BitVec.eq_of_toNat_eq h)
  have he := e.isLt
  rw [singlePattern_exponentField sg htwo]
  omega

/-- Settles O45: the cases of EXP; the rebiased exponents do not wrap, so they stay in R111's ranges. -/
theorem noNanAndNoInfinity : Obligations.NoNanAndNoInfinity := by
  intro s hv hc
  by_cases h0 : s.exp = 0#8
  · obtain ⟨hplus, hminus⟩ := signed_zero_cases s.sign
    exact ⟨_, _, _, exec_toSingle_zero hv h0, exec_toDouble_zero hv h0, exec_value_zero hv hc h0, fun _ => by simp,
      fun _ h => absurd h0 h, fun _ => ⟨rfl, rfl⟩, fun h => absurd h0 h,
      .inr ((BitVec.eq_zero_or_eq_one s.sign).imp hplus hminus)⟩
  · have hd := exec_toDouble_pattern hv h0
    have hvalue := (exec_value_eq_exec_toDouble hv hc h0).trans hd
    have hdouble := doublePattern_exponentField_range s.sign (frac52 s.buf) h0
    by_cases h1 : s.exp = 1#8
    · exact ⟨_, _, _, exec_toSingle_one hv h1, hd, hvalue, fun _ => by simp, fun h => by simp [statusCode] at h,
        fun h => absurd h h0, fun _ => hdouble, .inl rfl⟩
    · refine ⟨_, _, _, exec_toSingle_pattern hv h0 h1, hd, hvalue, fun h => ?_,
        fun _ _ h2 => singlePattern_exponentField_range s.sign _ h0 h1 h2, fun h => absurd h h0,
        fun _ => hdouble, .inl rfl⟩
      rw [respond_rspData, singlePattern_exponentField _ (two_le_toNat h0 h1), h.resolve_left h0]
      rfl

/-! ## Exponent bytes 0 and 255 -/

/-- The binary32 +0.0 stands for 0 (R10). -/
theorem asF32_zero : asF32 0#32 = some 0 := by
  have hzero : f32Class 0#32 = .finite false 0 (-149) := by decide
  rw [asF32, hzero, classValue]
  simp

/-- Settles O47: the answers for exponent byte 0; VALUE's is the encoding of 0 with the buffer's sign. -/
theorem zeroLaw : Obligations.ZeroLaw := by
  intro s hv hc h0
  obtain ⟨hplus, hminus⟩ := signed_zero_cases s.sign
  obtain ⟨hsign, -⟩ := hc hv
  refine ⟨exec_toSingle_zero hv h0, exec_toDouble_zero hv h0,
    ⟨_, exec_value_zero hv hc h0, rfl, hplus, hminus, ?_⟩, asF32_zero, asF64_zero⟩
  have hzero : Encodes (s.sign ++ 0#63) (valueNegative s.buf) 0 := by
    rw [hsign, signOf_eq_ofBool]
    exact .inl ⟨rfl, rfl⟩
  rw [respond_rspData, asF64_of_encodes hzero, mul_zero]

/-- Settles O48: 255 is one of the exponent bytes other than 0 and 1; with RAISE it is the one that raises. -/
theorem exponent255PassesThrough : Obligations.Exponent255PassesThrough := by
  refine ⟨fun s hv hc he => ?_, fun sg m f => ⟨rfl, rfl⟩⟩
  have h0 : s.exp ≠ 0#8 := by simp [he]
  have h1 : s.exp ≠ 1#8 := by simp [he]
  have hd := exec_toDouble_pattern hv h0
  refine ⟨_, _, _, exec_toSingle_pattern hv h0 h1, hd, (exec_value_eq_exec_toDouble hv hc h0).trans hd,
    rfl, rfl, rfl, ?_, ?_, ?_⟩
  · rw [respond_rspData, singlePattern_exponentField _ (two_le_toNat h0 h1), he]
    rfl
  · rw [respond_rspData, doublePattern_exponentField, he]
    rfl
  · rw [respond_rspData, asF64_doublePattern_of_coherent hv hc h0, he]
    norm_num

/-! ## The sign law -/

/-- The state with `B[0][7]`, and with it SIGN, flipped (R112). -/
def flipSign (s : State) : State := { s with buf := s.buf ^^^ 0x800000000000#48, sign := s.sign ^^^ 1#1 }

/-- Flipping the sign bit leaves the exponent byte (R112). -/
theorem expOf_flip (w : Bytes6) : expOf (w ^^^ 0x800000000000#48) = expOf w := by
  rw [expOf, BitVec.extractLsb'_xor]
  exact BitVec.xor_zero

/-- Flipping the sign bit flips the sign (R112). -/
theorem signOf_flip (w : Bytes6) : signOf (w ^^^ 0x800000000000#48) = signOf w ^^^ 1#1 :=
  BitVec.extractLsb'_xor

/-- Flipping the sign bit leaves M23 (R112). -/
theorem mant23_flip (w : Bytes6) : mant23 (w ^^^ 0x800000000000#48) = mant23 w := by
  rw [mant23, BitVec.extractLsb'_xor]
  exact BitVec.xor_zero

/-- Flipping the sign bit leaves F52 (R112). -/
theorem frac52_flip (w : Bytes6) : frac52 (w ^^^ 0x800000000000#48) = frac52 w := by
  have hm : mant39 (w ^^^ 0x800000000000#48) = mant39 w := by
    rw [mant39, BitVec.extractLsb'_xor]
    exact BitVec.xor_zero
  rw [frac52, hm, frac52]

/-- The flipped state is coherent, as the sign bit and its cache are flipped together (R24). -/
theorem coherent_flipSign (hc : CacheCoherent s) : CacheCoherent (flipSign s) := by
  intro hv
  obtain ⟨hsign, hexp⟩ := hc hv
  exact ⟨by rw [flipSign, signOf_flip, hsign], by rw [flipSign, expOf_flip, hexp]⟩

/-- A flipped top bit in front of `n` bits flips that bit of the whole. -/
theorem xor_one_append {n : Nat} (sg : BitVec 1) (x : BitVec n) : (sg ^^^ 1#1) ++ x = (sg ++ x) ^^^ (1#1 ++ 0#n) := by
  rw [BitVec.xor_append, BitVec.xor_zero]

/-- TODOUBLE's pattern with the sign flipped (R112). -/
theorem doublePattern_flip (sg : BitVec 1) (e : BitVec 8) (f : BitVec 52) :
    doublePattern (sg ^^^ 1#1) e f = doublePattern sg e f ^^^ 0x8000000000000000#64 := by
  rw [doublePattern, BitVec.append_assoc, xor_one_append, doublePattern, BitVec.append_assoc]
  rfl

/-- TOSINGLE's pattern with the sign flipped (R112). -/
theorem singlePattern_flip (sg : BitVec 1) (e : BitVec 8) (m : BitVec 23) :
    (singlePattern (sg ^^^ 1#1) e m).setWidth 64 = (singlePattern sg e m).setWidth 64 ^^^ 0x80000000#64 := by
  have hflip : singlePattern (sg ^^^ 1#1) e m = singlePattern sg e m ^^^ 0x80000000#32 := by
    rw [singlePattern, BitVec.append_assoc, xor_one_append, singlePattern, BitVec.append_assoc]
    rfl
  rw [hflip, BitVec.setWidth_xor]
  rfl

/-- Settles O46: the flipped state is coherent with the same exponent byte and mantissas, so each answer is the
same pattern with its top bit flipped, a zero of its own sign, or the same error. -/
theorem signLaw : Obligations.SignLaw := by
  intro s f hv hc hf
  obtain rfl : f = flipSign s := hf
  have hv' : (flipSign s).valid = true := hv
  have hc' := coherent_flipSign hc
  have ht (h0 : s.exp ≠ 0#8) (h1 : s.exp ≠ 1#8) : exec .toSingle (flipSign s) = .next (respond .ok
      ((singlePattern s.sign s.exp (mant23 s.buf)).setWidth 64 ^^^ 0x80000000#64) (flipSign s)) := by
    rw [← singlePattern_flip, ← mant23_flip]
    exact exec_toSingle_pattern hv' h0 h1
  have hd (h0 : s.exp ≠ 0#8) : exec .toDouble (flipSign s) =
      .next (respond .ok (doublePattern s.sign s.exp (frac52 s.buf) ^^^ 0x8000000000000000#64) (flipSign s)) := by
    rw [← doublePattern_flip, ← frac52_flip]
    exact exec_toDouble_pattern hv' h0
  by_cases h0 : s.exp = 0#8
  · exact ⟨_, _, _, _, _, _, exec_toSingle_zero hv h0, exec_toSingle_zero hv' h0, exec_toDouble_zero hv h0,
      exec_toDouble_zero hv' h0, exec_value_zero hv hc h0, exec_value_zero hv' hc' h0, fun h => absurd h0 h,
      fun h => absurd h0 h, fun _ => ⟨rfl, rfl, rfl, rfl, rfl, rfl⟩, fun h => absurd (h0.symm.trans h) (by decide)⟩
  · have hu := exec_toDouble_pattern hv h0
    have hvs := (exec_value_eq_exec_toDouble hv hc h0).trans hu
    have hvf := (exec_value_eq_exec_toDouble hv' hc' h0).trans (hd h0)
    by_cases h1 : s.exp = 1#8
    · exact ⟨_, _, _, _, _, _, exec_toSingle_one hv h1, exec_toSingle_one hv' h1, hu, hd h0, hvs, hvf,
        fun _ h => absurd h1 h, fun _ => ⟨rfl, rfl⟩, fun h => absurd h h0, fun _ => ⟨rfl, rfl⟩⟩
    · exact ⟨_, _, _, _, _, _, exec_toSingle_pattern hv h0 h1, ht h0 h1, hu, hd h0, hvs, hvf,
        fun _ _ => rfl, fun _ => ⟨rfl, rfl⟩, fun h => absurd h h0, fun h => absurd h h1⟩

/-! ## The binary32 value -/

/-- The sign bit of a binary32 pattern (R10). -/
theorem f32_sign (b : Bool) (e : BitVec 8) (m : BitVec 23) : (BitVec.ofBool b ++ e ++ m).getLsbD 31 = b := by
  rw [BitVec.append_assoc, BitVec.getLsbD_cast, BitVec.getLsbD_append]
  simp

/-- The fraction of a binary32 pattern (R10). -/
theorem f32_fraction (sg : BitVec 1) (e : BitVec 8) (m : BitVec 23) : (sg ++ e ++ m).extractLsb' 0 23 = m :=
  BitVec.extractLsb'_append_eq_right

/-- The value of a binary32 pattern with exponent field 0: a subnormal or a zero (R10, R105). -/
theorem asF32_subnormal (w : Bytes6) (m : BitVec 23) :
    asF32 (signOf w ++ 0#8 ++ m) = some (signFactor w * (m.toNat : ℚ) * 2 ^ (-149 : ℤ)) := by
  rw [signFactor_eq_signOfBool, signOf_eq_ofBool, asF32, f32Class, f32_sign, f32_exponentField, f32_fraction]
  rfl

/-- The value of a binary32 pattern with an exponent field from 1 to 254 (R10). -/
theorem asF32_normal (w : Bytes6) {e : BitVec 8} (m : BitVec 23) (he : 1 ≤ e.toNat) (he' : e.toNat ≤ 254) :
    asF32 (signOf w ++ e ++ m) = some (signFactor w * (1 + (m.toNat : ℚ) / 2 ^ 23) * 2 ^ ((e.toNat : ℤ) - 127)) := by
  have hexp : (e.toNat : ℤ) - 127 = (e.toNat : ℤ) - 150 + 23 := by ring
  rw [signFactor_eq_signOfBool, signOf_eq_ofBool, asF32, f32Class, f32_sign, f32_exponentField, f32_fraction,
    if_neg (by omega), if_neg (by omega), classValue, hexp, zpow_add₀ two_ne_zero]
  refine congrArg some ?_
  push_cast [signOfBool]
  ring

/-! ## Truncation -/

/-- The number of the mantissa bits TOSINGLE drops, the bytes 3 and 4 (R110). -/
def droppedBits (w : Bytes6) : ℕ := (byteOf w 3).toNat * 2 ^ 8 + (byteOf w 4).toNat

/-- The dropped bits are all 0 when both bytes are. -/
theorem droppedBits_eq_zero_iff (w : Bytes6) : droppedBits w = 0 ↔ byteOf w 3 = 0#8 ∧ byteOf w 4 = 0#8 := by
  rw [← BitVec.toNat_inj, ← BitVec.toNat_inj, BitVec.toNat_ofNat, droppedBits]
  omega

/-- The magnitude with the dropped bits at 0: `(1 + M23/2^23) × 2^(EXP-129)` (R110). -/
def truncatedMagnitude (w : Bytes6) : ℚ := (1 + ((mant23 w).toNat : ℚ) / 2 ^ 23) * 2 ^ (((expOf w).toNat : ℤ) - 129)

/-- The truncated value is its magnitude with the buffer's sign. -/
theorem real48Truncated_eq (w : Bytes6) : real48Truncated w = signFactor w * truncatedMagnitude w := mul_assoc _ _ _

/-- What truncation loses (R110). -/
theorem bufferMagnitude_eq (w : Bytes6) :
    bufferMagnitude w = truncatedMagnitude w + (droppedBits w : ℚ) / 2 ^ 39 * 2 ^ (((expOf w).toNat : ℤ) - 129) := by
  have hm : (mant39 w).toNat = (mant23 w).toNat * 2 ^ 16 + droppedBits w := by
    rw [mant39_eq_mant23_bytes, append_toNat, append_toNat, droppedBits]
    ring
  rw [bufferMagnitude, truncatedMagnitude, hm]
  push_cast
  ring

/-- Truncation does not increase the magnitude (R110). -/
theorem truncatedMagnitude_le (w : Bytes6) : truncatedMagnitude w ≤ bufferMagnitude w := by
  rw [bufferMagnitude_eq]
  exact le_add_of_nonneg_right (by positivity)

/-- Truncation is exact for dropped bits 0 alone (R110). -/
theorem truncatedMagnitude_eq_iff (w : Bytes6) :
    truncatedMagnitude w = bufferMagnitude w ↔ byteOf w 3 = 0#8 ∧ byteOf w 4 = 0#8 := by
  have hscale : (2 : ℚ) ^ (((expOf w).toNat : ℤ) - 129) ≠ 0 := by positivity
  rw [bufferMagnitude_eq, left_eq_add, mul_eq_zero, or_iff_left hscale, div_eq_zero_iff, or_iff_left (by norm_num),
    Nat.cast_eq_zero, droppedBits_eq_zero_iff]

/-- The sign factor changes no magnitude. -/
theorem abs_signFactor_mul (w : Bytes6) {x : ℚ} (hx : 0 ≤ x) : |signFactor w * x| = x := by
  rw [signFactor_eq_signOfBool, abs_mul, abs_signOfBool, one_mul, abs_of_nonneg hx]

/-- Two numbers with one sign are equal where their magnitudes are. -/
theorem signFactor_mul_inj (w : Bytes6) {x y : ℚ} : signFactor w * x = signFactor w * y ↔ x = y := by
  refine mul_right_inj' ?_
  rw [signFactor_eq_signOfBool]
  exact left_ne_zero_of_mul_eq_one (signOfBool_mul_self _)

/-- TOSINGLE of a coherent buffer, from exponent byte 2 on (R102). -/
theorem exec_toSingle_coherent (hv : s.valid = true) (hc : CacheCoherent s) (he : 2 ≤ s.exp.toNat) :
    exec .toSingle s =
      .next (respond .ok ((singlePattern (signOf s.buf) (expOf s.buf) (mant23 s.buf)).setWidth 64) s) := by
  obtain ⟨hsign, hexp⟩ := hc hv
  have h0 : s.exp ≠ 0#8 := by rintro h; simp [h] at he
  have h1 : s.exp ≠ 1#8 := by rintro h; simp [h] at he
  rw [exec_toSingle_pattern hv h0 h1, hsign, hexp]

/-- The value of TOSINGLE's pattern from exponent byte 3 on (R110). -/
theorem asF32_singlePattern (he : 3 ≤ (expOf w).toNat) :
    asF32 (singlePattern (signOf w) (expOf w) (mant23 w)) = some (real48Truncated w) := by
  have hlt := (expOf w).isLt
  have hfield := singleExponent_toNat (e := expOf w) (by omega)
  have hexp : ((expOf w - 2#8).toNat : ℤ) - 127 = ((expOf w).toNat : ℤ) - 129 := by omega
  rw [singlePattern, asF32_normal w _ (by omega) (by omega), hexp]
  rfl

/-- Settles O41: truncation drops bits of the magnitude and keeps the sign. -/
theorem toSingleTruncates : Obligations.ToSingleTruncates := by
  intro s hv hc he
  obtain ⟨-, hexp⟩ := hc hv
  have h0 : expOf s.buf ≠ 0#8 := by
    rw [← hexp]
    rintro h
    simp [h] at he
  have htrunc : 0 ≤ truncatedMagnitude s.buf := by unfold truncatedMagnitude; positivity
  have hle := truncatedMagnitude_le s.buf
  refine ⟨_, exec_toSingle_coherent hv hc (by omega), rfl, ?_, ?_, ?_⟩
  · rw [respond_rspData, extractLsb'_setWidth_single, asF32_singlePattern (hexp ▸ he)]
  · rw [real48Truncated_eq, real48Value_eq h0, abs_signFactor_mul _ htrunc, abs_signFactor_mul _ (htrunc.trans hle)]
    exact hle
  · rw [real48Truncated_eq, real48Value_eq h0, signFactor_mul_inj, truncatedMagnitude_eq_iff]

/-- At exponent byte 2 the subnormal is smaller than the buffer's value: `2 × M23/2^23 < 1 + M23/2^23` (R105). -/
theorem subnormal_lt_bufferMagnitude (he : expOf w = 2#8) :
    ((mant23 w).toNat : ℚ) * 2 ^ (-149 : ℤ) < bufferMagnitude w := by
  have hm : ((mant23 w).toNat : ℚ) < 2 ^ 23 := by exact_mod_cast (mant23 w).isLt
  refine lt_of_lt_of_le ?_ (truncatedMagnitude_le w)
  calc ((mant23 w).toNat : ℚ) * 2 ^ (-149 : ℤ)
      = (((mant23 w).toNat : ℚ) / 2 ^ 23 + ((mant23 w).toNat : ℚ) / 2 ^ 23) * 2 ^ (-127 : ℤ) := by norm_num; ring
    _ < (1 + ((mant23 w).toNat : ℚ) / 2 ^ 23) * 2 ^ (-127 : ℤ) := by
      gcongr
      exact (div_lt_one (by norm_num)).2 hm
    _ = truncatedMagnitude w := by rw [truncatedMagnitude, he]; rfl

/-- The rebiased exponent of exponent byte 2 is 0 (R105). -/
theorem singlePattern_two (sg : BitVec 1) (m : BitVec 23) : singlePattern sg 2#8 m = sg ++ 0#8 ++ m := rfl

/-- Settles O40: the pattern is a subnormal of the buffer's sign, and its magnitude is smaller than the buffer's. -/
theorem toSingleExponentTwo : Obligations.ToSingleExponentTwo := by
  intro s hv hc he
  obtain ⟨hsign, hexp⟩ := hc hv
  rw [hexp] at he
  have h0 : expOf s.buf ≠ 0#8 := by simp [he]
  have hdata := BitVec.setWidth_eq_append (x := signOf s.buf ++ 0#8 ++ mant23 s.buf) (w := 64) (by decide)
  refine ⟨_, exec_toSingle_coherent hv hc (by simp [hexp, he]), rfl, ?_⟩
  rw [respond_rspData, he, singlePattern_two, extractLsb'_setWidth_single, asF32_subnormal, hsign]
  refine ⟨hdata, rfl, fun h => (subnormal_lt_bufferMagnitude he).ne ?_⟩
  rwa [Option.some.injEq, mul_assoc, real48Value_eq h0, signFactor_mul_inj] at h

end Sys2Proof.Proofs
end

section
/-!
SUPPORT. Proofs of the statements about the control commands and about the block never stopping (spec/43_control.md R120,
R121).
-/

namespace Sys2Proof.Proofs

open Sys2Proof.Machine Sys2Proof.Laws

variable {s t : State} {p : Pins}

/-! ## The block never stops -/

/-- What one edge does leaves the later edges' inputs: reset, a command and an idle edge write registers alone (R20). -/
theorem edge_inputs (h : edge p s = .next t) : t.inputs = s.inputs := by
  obtain ⟨-, rfl⟩ | ⟨-, -, hx⟩ | ⟨-, -, rfl⟩ := edge_cases h
  · exact resetEdge_inputs s
  · obtain ⟨hinputs, -⟩ := exec_response hx
    exact hinputs
  · exact idleEdge_inputs s

/-- A step uses up the inputs of one edge, and past their end there is none to use up. -/
theorem step_inputs (h : step s = .next t) : t.inputs = s.inputs.tail := by
  obtain ⟨hs, rfl⟩ | ⟨p, rest, hs, he⟩ := step_cases h
  · rw [idleEdge_inputs, hs, List.tail_nil]
  · rw [edge_inputs he, hs, List.tail_cons]

/-- Settles O15: every command answers, so every step does, and a step that answers takes its edge off the inputs. -/
theorem everyStepAnswers : Obligations.EveryStepAnswers := by
  intro s
  obtain ⟨t, ht⟩ := step_answers s
  exact ⟨t, ht, step_inputs ht⟩

/-! ## NOP and the reserved opcodes -/

/-- Settles O26: NOP is a response and has no check before it. -/
theorem nopResponds : Obligations.NopResponds := fun _ => rfl

/-- Settles O27: each of the six meanings raises ILLEGAL and has no check before it. -/
theorem reservedOpcodesRespondIllegal : Obligations.ReservedOpcodesRespondIllegal := by
  rintro s i (rfl | rfl | rfl | rfl | rfl | rfl)
  all_goals rfl

end Sys2Proof.Proofs
end

section
/-!
SUPPORT. Proofs of the statements about the errors: their frame, the status of every command, and NO_BUFFER
(spec/60_exceptions.md R131, R134, R138, R139).
-/

namespace Sys2Proof.Proofs

open Sys2Proof.Machine Sys2Proof.Laws Sys2Proof.Safety

variable {s : State} {i : Instr} {i16 i32 : Int} {code : BitVec 3}

/-! ## What an error leaves -/

/-- Settles O24: a status other than OK leaves only the answers that `raise` gives; a LOAD or REVERSE that writes the buffer
answers OK. -/
theorem errorsChangeNothingElse : Obligations.ErrorsChangeNothingElse := by
  intro i s t h hstatus
  obtain ha | ⟨v, -, rfl⟩ | ⟨-, -, rfl⟩ := exec_cases h
  · obtain ⟨d, rfl⟩ | ⟨st, rfl, -, -⟩ := ha
    · exact absurd rfl hstatus
    · rfl
  · exact absurd rfl hstatus
  · exact absurd rfl hstatus

/-! ## NO_BUFFER -/

/-- Settles O36: each of the seven meanings stands behind the NO_BUFFER check. -/
theorem noBufferWithoutLoad : Obligations.NoBufferWithoutLoad := by
  rintro s i hv (rfl | rfl | rfl | rfl | rfl | rfl | rfl)
  all_goals exact withBuffer_invalid hv

/-! ## The status of every command -/

/-- The command `i` answers in the state `s`, with the status code `code`. -/
def AnswersWithStatus (i : Instr) (s : State) (code : BitVec 3) : Prop :=
  ∃ t, exec i s = .next t ∧ t.rspStatus = code

/-- COMBINE of integers its fields hold: RANGE for the 16-bit integer -32768, else OK (R132). -/
theorem combine_status (h : (Instr.combine i16 i32).wellFormed = true) (s : State) :
    AnswersWithStatus (.combine i16 i32) s (if i16 = -32768 then 1#3 else 0#3) := by
  have hrange := inRange_iff_of_wellFormed h
  split
  case isTrue h16 => exact ⟨_, exec_combine_outOfRange (fun hin => hrange.1 hin h16) s, rfl⟩
  case isFalse h16 => exact ⟨_, exec_combine_inRange (hrange.2 h16) s, rfl⟩

/-- LOAD: LENGTH for a byte count other than 6, else OK (R133). -/
theorem load_status (len : Nat) (data : Bytes6) (s : State) :
    AnswersWithStatus (.load len data) s (if len ≠ 6 then 2#3 else 0#3) := by
  split
  case isTrue hlen => exact ⟨_, exec_load_other hlen data s, rfl⟩
  case isFalse hlen =>
    obtain rfl := not_not.1 hlen
    exact ⟨_, exec_load_six data s, rfl⟩

/-- A command behind the NO_BUFFER check: NO_BUFFER comes before whatever status the command has with VALID = 1 (R138). -/
theorem status_behind_bufferCheck (hno : s.valid = false → exec i s = .next (raise .noBuffer s))
    (hread : s.valid = true → AnswersWithStatus i s code) :
    AnswersWithStatus i s (if s.valid = false then 3#3 else code) := by
  split
  case isTrue hv => exact ⟨_, hno hv, rfl⟩
  case isFalse hv => exact hread (Bool.eq_true_of_not_eq_false hv)

/-- TOSINGLE of a valid buffer: UNDERFLOW for exponent byte 1, else OK (R135). -/
theorem toSingle_status (hv : s.valid = true) :
    AnswersWithStatus .toSingle s (if s.exp = 1#8 then 4#3 else 0#3) := by
  split
  case isTrue h1 => exact ⟨_, exec_toSingle_one hv h1, rfl⟩
  case isFalse h1 =>
    by_cases h0 : s.exp = 0#8
    · exact ⟨_, exec_toSingle_zero hv h0, rfl⟩
    · exact ⟨_, exec_toSingle_pattern hv h0 h1, rfl⟩

/-- TODOUBLE of a valid buffer: OK for every exponent byte (R106). -/
theorem toDouble_status (hv : s.valid = true) : AnswersWithStatus .toDouble s 0#3 := by
  by_cases h0 : s.exp = 0#8
  · exact ⟨_, exec_toDouble_zero hv h0, rfl⟩
  · exact ⟨_, exec_toDouble_pattern hv h0, rfl⟩

/-- Settles O25: the commands that read the buffer have their own status behind the NO_BUFFER check; the others do not see
VALID. -/
theorem statusOfEveryCommand : Obligations.StatusOfEveryCommand := by
  intro i s hw
  cases i with
  | nop => exact ⟨_, rfl, rfl⟩
  | combine i16 i32 => exact combine_status hw s
  | load len data => exact load_status len data s
  | toSingle => exact status_behind_bufferCheck withBuffer_invalid toSingle_status
  | toDouble => exact status_behind_bufferCheck withBuffer_invalid toDouble_status
  | reverse => exact status_behind_bufferCheck withBuffer_invalid fun hv => ⟨_, exec_reverse hv, rfl⟩
  | value => exact status_behind_bufferCheck withBuffer_invalid fun hv => ⟨_, exec_value hv, rfl⟩
  | getSign => exact status_behind_bufferCheck withBuffer_invalid fun hv => ⟨_, exec_getSign hv, rfl⟩
  | getExp => exact status_behind_bufferCheck withBuffer_invalid fun hv => ⟨_, exec_getExp hv, rfl⟩
  | getBuf => exact status_behind_bufferCheck withBuffer_invalid fun hv => ⟨_, exec_getBuf hv, rfl⟩
  | reservedA | reservedB | reservedC | reservedD | reservedE | reservedF => exact ⟨_, rfl, rfl⟩

end Sys2Proof.Proofs
end

section
/-!
SUPPORT. Proofs of the statements about the reset edge and the command before it (spec/70_reset_and_hazards.md R150, R151).
-/

namespace Sys2Proof.Proofs

open Sys2Proof.Machine Sys2Proof.Laws

variable {s : State} {p : Pins} {c : Word} {rest : List Pins}

/-! ## The command port and `rst` -/

/-- The block is ready while `rst = 0` (R28). -/
theorem cmdReady_of_no_reset (hr : p.rst = false) : cmdReady p = true := by
  rw [cmdReady, hr, Bool.not_false]

/-- The block is not ready while `rst = 1` (R28, R151). -/
theorem cmdReady_of_reset (hr : p.rst = true) : cmdReady p = false := by
  rw [cmdReady, hr, Bool.not_true]

/-- A block that is not ready accepts no command (R28). -/
theorem accepted_of_not_ready (h : cmdReady p = false) : accepted p = false := by
  rw [accepted, h, Bool.and_false]

/-! ## The step at each of the two edges -/

/-- A step with `rst = 1` is the reset edge, whatever the command port holds (R150). -/
theorem step_of_reset (hs : s.inputs = p :: rest) (hr : p.rst = true) :
    step s = .next (resetEdge { s with inputs := rest }) :=
  (step_of_inputs hs).trans (edge_of_reset hr)

/-- A step with a command word issued is that command (R28, R48). -/
theorem step_of_issue (hs : s.inputs = issue c :: rest) : step s = exec (decode c) { s with inputs := rest } :=
  (step_of_inputs hs).trans (edge_of_command rfl rfl)

/-- Settles O13: the step is the reset edge, which is the next state of the statement. -/
theorem resetEdgeClearsValidAndResponse : Obligations.ResetEdgeClearsValidAndResponse :=
  ⟨fun _ _ _ hs hr => step_of_reset hs hr, fun _ hr => cmdReady_of_no_reset hr⟩

/-- Settles O14: the command answers and leaves the reset edge's inputs first in line, so the next step is the reset edge from
the state that shows the command's response. -/
theorem commandJustBeforeReset : Obligations.CommandJustBeforeReset := by
  refine ⟨fun p hr => ⟨cmdReady_of_reset hr, accepted_of_not_ready (cmdReady_of_reset hr)⟩, ?_⟩
  intro s c p rest hs hr
  obtain ⟨t, ht⟩ := exec_answers (decode c) { s with inputs := p :: rest }
  obtain ⟨hinputs, hrsp, -⟩ := exec_response ht
  have hreset : step t = .next (resetEdge { t with inputs := rest }) := step_of_reset hinputs hr
  exact ⟨t, _, ht, (step_of_issue hs).trans ht, hrsp, hreset, rfl, rfl, rfl, rfl, rfl⟩

end Sys2Proof.Proofs
end
